-- ==== Sys2Proof/Word.lean ====
section
/-!
DEFINITION. The types every rule of spec/ is written over (00_scope.md R9, R10, R13): bytes, command words,
cycle positions, levels, groups, channels, colors and messages, and the two records that hold one value per
channel and one per group.
-/

namespace Sys2Proof

/-- A byte, 0 to 255, unsigned (R13, `BRIGHT_W` of R6). -/
abbrev Byte := BitVec 8

/-- A 40-bit command word `w[39:0]` (R57). -/
abbrev CmdWord := BitVec 40

/-- The 7-bit position field of a TICK (R56). Only 0 to 99 are legal: see `Instr.WellFormed`. -/
abbrev PosField := BitVec 7

/-- The level of an output pin (R13, R18). -/
inductive Level where
  | low
  | high
deriving DecidableEq, Repr, Inhabited

/-- An output group, in wire order (R9): `group1` is index 0. -/
inductive Group where
  | group1
  | group2
  | group3
  | group4
deriving DecidableEq, Repr, Inhabited

/-- A channel of a group, in Color order (R9): `red` is index 0. -/
inductive Channel where
  | red
  | green
  | blue
  | white
deriving DecidableEq, Repr, Inhabited

/-- One value for each channel of a group. -/
structure Channels (α : Type) where
  red   : α
  green : α
  blue  : α
  white : α
deriving DecidableEq, Repr, Inhabited

/-- One value for each output group. -/
structure Groups (α : Type) where
  group1 : α
  group2 : α
  group3 : α
  group4 : α
deriving DecidableEq, Repr, Inhabited

/-- Four brightness bytes (R13). -/
abbrev Color := Channels Byte

/-- Four Colors, one per output group (R13). -/
abbrev Message := Groups Color

/-- The index `g` of a group, 0 to 3 (R9). -/
def Group.index : Group → Nat
  | .group1 => 0
  | .group2 => 1
  | .group3 => 2
  | .group4 => 3

/-- The index `c` of a channel, 0 to 3 (R9). -/
def Channel.index : Channel → Nat
  | .red => 0
  | .green => 1
  | .blue => 2
  | .white => 3

/-- The value a record holds for channel `c`. -/
def Channels.get {α : Type} (x : Channels α) : Channel → α
  | .red => x.red
  | .green => x.green
  | .blue => x.blue
  | .white => x.white

/-- The record whose value for each channel is given by `f`. -/
def Channels.ofFn {α : Type} (f : Channel → α) : Channels α :=
  ⟨f .red, f .green, f .blue, f .white⟩

/-- The value a record holds for group `g`. -/
def Groups.get {α : Type} (x : Groups α) : Group → α
  | .group1 => x.group1
  | .group2 => x.group2
  | .group3 => x.group3
  | .group4 => x.group4

/-- The record whose value for each group is given by `f`. -/
def Groups.ofFn {α : Type} (f : Group → α) : Groups α :=
  ⟨f .group1, f .group2, f .group3, f .group4⟩

/-- The record with the value for group `g` replaced. -/
def Groups.set {α : Type} (x : Groups α) (g : Group) (v : α) : Groups α :=
  .ofFn fun k => if k = g then v else x.get k

/-- A duty target (R13, R15, R16): absent, or present with an off-step in 1 to 255. `Present(0)` cannot be
written, as R16 asks. -/
inductive Duty where
  | absent
  | present (v : { b : Byte // b ≠ 0 })
deriving DecidableEq, Repr, Inhabited

/-- The decoder's phase (R22). -/
inductive Phase where
  | ready
  | ackWait
deriving DecidableEq, Repr, Inhabited

end Sys2Proof
end

