-- ==== Sys2Proof/Config.lean ====
section
/-!
DEFINITION. The constants of 00_scope.md R6, the parameters of R7 that the spec leaves to the implementation, and
the free values behind "any" in 70_reset_and_hazards.md R125. The parameters and free values are constants without
a body: no proof can see what they are.
-/

namespace Sys2Proof

/-- `CYCLE`: steps in one PWM cycle; legal positions are below it (R6). -/
def Config.cycle : Nat := 100

/-- `FRAME_LEN`: bytes in one wire frame, and entries of the frame buffer (R6, R35). -/
def Config.frameLen : Nat := 17

/-- `PAYLOAD_LEN`: payload bytes of a frame (R6). -/
def Config.payloadLen : Nat := 16

/-- `SENTINEL`: the start-of-frame byte (R6, R51). -/
def Config.sentinel : Byte := 0xFF

/-- `ACK`: the acknowledgment byte (R6, R53). -/
def Config.ack : Byte := 0xFF

/-- `PIN_INIT`: the level of each pin after RESET, an open parameter (R7, R18). Log 7. -/
opaque Config.pinInit : Group → Channel → Level

/-- `GROUP_NAME`: the physical fixture of each wire group, an open parameter that no rule reads (R7). Log 13. -/
opaque Config.groupName : Group → String

/-- DESIGN CHOICE, log 8. What buffer entry `i` reads as when nothing has written it since the `n`-th RESET (R21,
R125: any byte): a free value. -/
opaque Config.resetByte (n i : Nat) : Byte

/-- DESIGN CHOICE, log 9. What the message register holds right after the `n`-th RESET (R23, R125: any): a free
value. -/
opaque Config.resetMessage (n : Nat) : Message

end Sys2Proof
end

