-- ==== Sys2Proof/Syntax.lean ====
section
/-!
DEFINITION. The instructions: one constructor for each row of spec/opcode_table.json (30_encoding.md R57), with the
operands of R58 to R61. RESET and TX_ACCEPT are no command words (R57); they are moves of Machine/State.lean.
-/

namespace Sys2Proof

/-- A host operation, as the block's decoder reads it from a command word. -/
inductive Instr where
  /-- TICK p (R58, R68). -/
  | tick (p : PosField)
  /-- FEED d (R59, R85). -/
  | feed (d : Byte)
  /-- FEED_ERR d (R60, R93). -/
  | feedErr (d : Byte)
  /-- SET_COLOR g, color (R61, R67). -/
  | setColor (g : Group) (color : Color)
deriving DecidableEq, Repr

end Sys2Proof
end

