-- ==== Sys2Proof/WellFormed.lean ====
section
/-!
DEFINITION. Which instructions the encoding admits (30_encoding.md R56, R62): every operand value is legal but a
TICK position of 100 to 127.
-/

namespace Sys2Proof

/-- A position operand is legal when it is below `CYCLE` (R56). -/
abbrev PosField.Legal (p : PosField) : Prop := p.toNat < Config.cycle

/-- The check of R56 and R62 on each instruction's operands. -/
def Instr.wellFormed : Instr → Bool
  | .tick p => decide (p.toNat < Config.cycle)
  | .feed _ => true
  | .feedErr _ => true
  | .setColor _ _ => true

/-- An instruction the encoding admits. -/
abbrev Instr.WellFormed (i : Instr) : Prop := i.wellFormed = true

end Sys2Proof
end

