-- ==== Sys2Proof/Decode.lean ====
section
/-!
DEFINITION. The decoder of 40-bit command words and the encoder, both from 30_encoding.md R57 to R62 and
60_exceptions.md R107. Total: every word is an instruction or is refused by one of the three reasons.
-/

namespace Sys2Proof

/-- The refusal reasons of R107; each records the word. Raised by `decode` (and by a TICK term outside 0 to 99); the
machine goes on (R108). Safe: a claim takes "no refusal recorded" as a premise (R109). -/
inductive WordRefusal where
  /-- `w[39:36]` is none of the four assigned opcodes. -/
  | reservedOpcode (w : CmdWord)
  /-- A 1 in a must-be-zero field. -/
  | reservedBits (w : CmdWord)
  /-- A TICK whose position is 100 to 127. -/
  | positionOutOfRange (w : CmdWord)
deriving DecidableEq, Repr

/-- The group a 2-bit field `q` names (R61). -/
def groupOfField (q : BitVec 2) : Group :=
  if q = 0 then .group1 else if q = 1 then .group2 else if q = 2 then .group3 else .group4

/-- The 2-bit field of a group (R61). -/
def groupField (g : Group) : BitVec 2 := BitVec.ofNat 2 g.index

/-- The opcode field `w[39:36]` (R57). -/
def opcodeField (w : CmdWord) : BitVec 4 := w.extractLsb' 36 4

/-- TICK: reserved `w[35:7]`, position `w[6:0]` (R58). Reserved bits are reported before the position (R107). -/
def decodeTick (w : CmdWord) : Except WordRefusal Instr :=
  if w.extractLsb' 7 29 ≠ 0 then .error (.reservedBits w)
  else if (w.extractLsb' 0 7).toNat < Config.cycle then .ok (.tick (w.extractLsb' 0 7))
  else .error (.positionOutOfRange w)

/-- FEED: reserved `w[35:8]`, byte `w[7:0]` (R59). -/
def decodeFeed (w : CmdWord) : Except WordRefusal Instr :=
  if w.extractLsb' 8 28 ≠ 0 then .error (.reservedBits w) else .ok (.feed (w.extractLsb' 0 8))

/-- FEED_ERR: reserved `w[35:8]`, byte `w[7:0]` (R60). -/
def decodeFeedErr (w : CmdWord) : Except WordRefusal Instr :=
  if w.extractLsb' 8 28 ≠ 0 then .error (.reservedBits w) else .ok (.feedErr (w.extractLsb' 0 8))

/-- SET_COLOR: reserved `w[35:34]`, group `w[33:32]`, red `w[31:24]` down to white `w[7:0]` (R61, R41). -/
def decodeSetColor (w : CmdWord) : Except WordRefusal Instr :=
  if w.extractLsb' 34 2 ≠ 0 then .error (.reservedBits w)
  else .ok (.setColor (groupOfField (w.extractLsb' 32 2))
    ⟨w.extractLsb' 24 8, w.extractLsb' 16 8, w.extractLsb' 8 8, w.extractLsb' 0 8⟩)

/-- The decoder: the four assigned opcodes, every other one refused (R57, R62). -/
def decode (w : CmdWord) : Except WordRefusal Instr :=
  if opcodeField w = 0b0001 then decodeTick w
  else if opcodeField w = 0b0010 then decodeFeed w
  else if opcodeField w = 0b0011 then decodeFeedErr w
  else if opcodeField w = 0b0100 then decodeSetColor w
  else .error (.reservedOpcode w)

/-- A field's value at bit `k` of a word. -/
def fieldAt {n : Nat} (k : Nat) (x : BitVec n) : CmdWord := x.setWidth 40 <<< k

/-- The command word of an instruction: the opcode at bits 39 to 36, the operands at their fields, every reserved bit 0
(R58 to R61). -/
def encode : Instr → CmdWord
  | .tick p => fieldAt 36 0b0001#4 ||| fieldAt 0 p
  | .feed d => fieldAt 36 0b0010#4 ||| fieldAt 0 d
  | .feedErr d => fieldAt 36 0b0011#4 ||| fieldAt 0 d
  | .setColor g c =>
    fieldAt 36 0b0100#4 ||| fieldAt 32 (groupField g) ||| fieldAt 24 c.red ||| fieldAt 16 c.green |||
      fieldAt 8 c.blue ||| fieldAt 0 c.white

/-- The instruction read from a row's bits: bit 0 is the word's least significant bit, and every bit the table gives
no value is 0 (R64: every command word is 40 bits). -/
def decodeTableWord (nbits w : Nat) : Option Instr :=
  if nbits ≤ 40 then (decode (BitVec.ofNat 40 (w % 2 ^ nbits))).toOption else none

end Sys2Proof
end

