-- ==== Sys2Proof/Machine/State.lean ====
section
/-!
DEFINITION. The machine's state as plain data: `Block`, the spec's own record (10_state.md R34), inside `State`, which
adds the ports and the environment's inputs (log 1); why a step can stop; and the state after reset.
-/

namespace Sys2Proof.Machine

/-- The frame buffer's contents: (index, byte) pairs, indices strictly rising and below 17 (20_memory.md R35). An
index that is not listed has not been written since the last RESET (log 8). The form is `Memory.wf`. -/
abbrev Memory := List Host.Cell

/-- The whole state the spec gives the block (R34). -/
structure Block where
  /-- DUTY0 to DUTY15, `duty[g][c]` (R15). -/
  duty    : Groups (Channels Duty)
  /-- The 16 output pins, `pin[g][c]` (R18). -/
  pin     : Groups (Channels Level)
  /-- The decoder's fill index, 0 to 16 at every step boundary (R20). -/
  idx     : Fin 17
  /-- The frame buffer (R21). -/
  buf     : Memory
  /-- The decoder's phase (R22). -/
  phase   : Phase
  /-- The message register (R23), read only in AckWait. -/
  msg     : Message
  /-- The model's sticky refusal mark (R33). -/
  refused : Bool
deriving DecidableEq, Repr

/-- Which agent steps next (60_exceptions.md R111). -/
inductive Move where
  /-- The host offers its next operation, and the block answers. -/
  | host
  /-- The transmitter accepts the offered byte: TX_ACCEPT (41_frame_decoder.md R94). -/
  | txAccept
  /-- The RESET event; `ackSent` is the draw of 70_reset_and_hazards.md R126. -/
  | reset (ackSent : Bool)
deriving DecidableEq, Repr

/-- The machine: the block, its ports, and the inputs to come. -/
structure State where
  /-- The block itself (R34). -/
  block    : Block
  /-- The operation input port: the command word offered and not yet taken (R24, R97). -/
  offered  : Option CmdWord
  /-- The message port of the last step: `msg_valid` and `msg_out` (R27). Log 11. -/
  msgOut   : Option Message
  /-- The bytes transmitted so far, oldest first (R96, R126). The model's own history: log 12. -/
  sent     : List Byte
  /-- The refusal record, oldest first (60_exceptions.md R107). The model's own: log 4. -/
  refusals : List WordRefusal
  /-- The command words the host presents next, in order (R24, R30). The model's own input: log 3. -/
  stream   : List CmdWord
  /-- The order of the agents' steps to come (R111). The model's own input: log 2. -/
  moves    : List Move
  /-- How many RESETs were taken: what the free values of `buf` and `msg` are applied to. The model's own: log 8. -/
  draws    : Nat
deriving DecidableEq, Repr

/-- Why the machine could stop with a fault: never. The block raises no exception, takes no trap, and no condition is
fatal (60_exceptions.md R105), so the type has no constructor and nobody raises one. Log 17: safe. -/
inductive Fault where
deriving DecidableEq, Repr

/-- Why a step could have no meaning. -/
inductive Refusal where
  /-- Raised by an arm of `exec` whose instruction has no meaning yet. Every arm has one, so nobody raises it. Safe. -/
  | notModelled (mnemonic : String)
deriving DecidableEq, Repr

/-- The machine right after RESET (70_reset_and_hazards.md R125, R128; 10_state.md section 7): duties Absent, pins at
`PIN_INIT`, the decoder seeking sync in Ready, the buffer and message register at any value, nothing refused, nothing
offered and nothing transmitted. -/
def State.reset : State where
  block :=
    { duty    := .ofFn fun _ => .ofFn fun _ => .absent
      pin     := .ofFn fun g => .ofFn fun c => Config.pinInit g c
      idx     := 0
      buf     := []
      phase   := .ready
      msg     := Config.resetMessage 0
      refused := false }
  offered  := none
  msgOut   := none
  sent     := []
  refusals := []
  stream   := []
  moves    := []
  draws    := 0

end Sys2Proof.Machine
end

