-- ==== Sys2Proof/Machine/Flags.lean ====
section
/-!
DEFINITION. The block has no status flags or condition codes (10_state.md R31), so no flag is computed here. What
stands in their place are the indications of its output ports, each a function of the state.
-/

namespace Sys2Proof.Machine

/-- `tx_valid`: a byte is offered on the transmit port, exactly while the phase is AckWait (10_state.md R26). -/
def txValid (s : State) : Bool :=
  match s.block.phase with
  | .ready => false
  | .ackWait => true

/-- `tx_data`: the byte offered, `ACK`; nothing while `tx_valid` is false (R26, 30_encoding.md R53). -/
def txData (s : State) : Option Byte :=
  if txValid s then some Config.ack else none

/-- `msg_valid`: a Message was presented by the last step (R27). -/
def msgValid (s : State) : Bool := s.msgOut.isSome

end Sys2Proof.Machine
end

