-- ==== Sys2Proof/Machine/Operands.lean ====
section
/-!
DEFINITION. What an operand stands for: the flat channel number, the duty encoding of a brightness byte and its
storage form, and the buffer entry of each payload byte.
-/

namespace Sys2Proof.Machine

/-- The flat number `n = 4*g + c` of a channel, 0 to 15 (00_scope.md R9): the `n` of `DUTY<n>` (10_state.md R15). -/
def channelNumber (g : Group) (c : Channel) : Nat := 4 * g.index + c.index

/-- `enc(b)`: the duty a brightness byte stands for (30_encoding.md R54). -/
def enc (b : Byte) : Duty :=
  if h : b = 0 then .absent else .present ⟨b, h⟩

/-- The byte a duty register stores: 0 for Absent (30_encoding.md R55). -/
def storedByte : Duty → Byte
  | .absent => 0
  | .present v => v.val

/-- The duties of a group's four channels for a Color (40_pwm_scheduler.md R67). -/
def encColor (color : Color) : Channels Duty :=
  .ofFn fun c => enc (color.get c)

/-- The buffer entry that holds the brightness byte of channel `(g, c)`: `1 + 4*g + c` (20_memory.md R37). -/
def payloadEntry (g : Group) (c : Channel) : Fin 17 :=
  ⟨1 + channelNumber g c, by cases g <;> cases c <;> decide⟩

/-- The duty equals position `p`: the compare of 40_pwm_scheduler.md R69 and 60_exceptions.md R116. -/
def dutyMatches (p : PosField) : Duty → Bool
  | .absent => false
  | .present v => decide (v.val.toNat = p.toNat)

end Sys2Proof.Machine
end

