-- ==== Sys2Proof/Machine/Ops.lean ====
section
/-!
DEFINITION. The named operations every meaning and every event is written over: the frame buffer, the registers,
accepting and holding a host operation, refusing a word, the operation port, and the two events TX_ACCEPT and RESET.

There is no operation for taking an exception or for returning from one: the block has neither (60_exceptions.md R105,
R113, R114). What takes their place is `accept` (accepted or held) and `refuseWord` (R106).
-/

namespace Sys2Proof.Machine

/-! ### The frame buffer as a list of cells -/

/-- The byte listed at index `i`; none when nothing has written it since the last RESET. -/
def Memory.read : Memory → Nat → Option Byte
  | [], _ => none
  | (a, v) :: m, i => if a = i then some v else Memory.read m i

/-- The buffer with byte `v` at index `i`, in canonical form. -/
def Memory.write : Memory → Nat → Byte → Memory
  | [], i, v => [(i, v)]
  | (a, u) :: m, i, v =>
    if i < a then (i, v) :: (a, u) :: m
    else if i = a then (i, v) :: m
    else (a, u) :: Memory.write m i v

/-- The cells' indices rise strictly, from `lo` on, and stay below `FRAME_LEN` (20_memory.md R35). -/
def Memory.risingFrom : Nat → Memory → Bool
  | _, [] => true
  | lo, (a, _) :: m => decide (lo ≤ a) && decide (a < Config.frameLen) && Memory.risingFrom (a + 1) m

/-- The canonical form. An unlisted index has no byte, so no listed entry can equal it. -/
def Memory.wf (m : Memory) : Bool := Memory.risingFrom 0 m

/-! ### Reading and writing the block's state (00_scope.md R11) -/

/-- `MemRead(i, 1)` (20_memory.md R35). An entry nothing has written since the last RESET is any byte (10_state.md R21):
a free value, log 8. -/
def memRead (s : State) (i : Fin 17) : Byte :=
  (s.block.buf.read i).getD (Config.resetByte s.draws i)

/-- `MemWrite(i, 1, v)` (R35). -/
def memWrite (i : Fin 17) (v : Byte) (s : State) : State :=
  { s with block := { s.block with buf := s.block.buf.write i v } }

/-- `duty[g][·] <- d`, the four registers of one group (R67). -/
def setDuty (g : Group) (d : Channels Duty) (s : State) : State :=
  { s with block := { s.block with duty := s.block.duty.set g d } }

/-- `pin[g][c] <- f g c` for all 16 channels at once (40_pwm_scheduler.md R70). -/
def setPins (f : Group → Channel → Level) (s : State) : State :=
  { s with block := { s.block with pin := .ofFn fun g => .ofFn fun c => f g c } }

/-- `idx <- i`. -/
def setIdx (i : Fin 17) (s : State) : State :=
  { s with block := { s.block with idx := i } }

/-- `phase <- p`. -/
def setPhase (p : Phase) (s : State) : State :=
  { s with block := { s.block with phase := p } }

/-- `msg <- m`. -/
def setMsg (m : Message) (s : State) : State :=
  { s with block := { s.block with msg := m } }

/-- `duty[g][c]`. -/
def dutyAt (s : State) (g : Group) (c : Channel) : Duty := (s.block.duty.get g).get c

/-- `pin[g][c]`. -/
def pinAt (s : State) (g : Group) (c : Channel) : Level := (s.block.pin.get g).get c

/-! ### Accepting, holding and refusing (60_exceptions.md R106) -/

/-- The operation on the port is taken (10_state.md R24: "consumed in that step"). -/
def consume (s : State) : State := { s with offered := none }

/-- The one shared form of a host operation: in Ready it is accepted, has the effect `f` and is consumed; in AckWait it
is held, nothing changes and it stays offered (41_frame_decoder.md R97). -/
def accept (f : State → State) (s : State) : Host.Outcome State Fault Refusal :=
  match s.block.phase with
  | .ready => .next (consume (f s))
  | .ackWait => .next s

/-- A refusal's marks: the sticky flag and the record; nothing else of the block (R107 to R109). -/
def markRefused (r : WordRefusal) (s : State) : State :=
  { s with block := { s.block with refused := true }, refusals := s.refusals ++ [r] }

/-- A refused word: marked and consumed (R108). -/
def refuseWord (r : WordRefusal) (s : State) : State := consume (markRefused r s)

/-! ### The operation port (10_state.md R24) -/

/-- The host presents an operation: an operation still offered stays, otherwise the next word of its stream, if it has
one, goes onto the port. -/
def present (s : State) : State :=
  match s.offered, s.stream with
  | none, w :: ws => { s with offered := some w, stream := ws }
  | _, _ => s

/-- How the block answers the host's offer (R106). `nothing`: the host offers no operation (10_state.md R28). -/
inductive Answer where
  | nothing
  | held
  | refused (r : WordRefusal)
  | accepted (i : Instr)
deriving DecidableEq, Repr

/-- The block's answer to what is on the port. Whether it answers at all depends only on the phase (R111), so in
AckWait any word is held (log 5). -/
def answer (s : State) : Answer :=
  match s.offered, s.block.phase with
  | none, _ => .nothing
  | some _, .ackWait => .held
  | some w, .ready =>
    match decode w with
    | .ok i => .accepted i
    | .error r => .refused r

/-- A step begins: its move is taken from the schedule, and the message port of the step before ends (10_state.md R27:
valid "for exactly one step"). -/
def beginStep (ms : List Move) (s : State) : State :=
  { s with moves := ms, msgOut := none }

/-! ### The two events -/

/-- TX_ACCEPT: the transmitter takes the byte offered, the phase returns to Ready and the Message is delivered for this
step (41_frame_decoder.md R94). Not enabled in Ready, where nothing happens (R95, log 14). -/
def txAccept (s : State) : State :=
  match s.block.phase with
  | .ready => s
  | .ackWait =>
    { setPhase .ready s with msgOut := some s.block.msg, sent := s.sent ++ [Config.ack] }

/-- The block's state after the `n`-th RESET; the refusal mark is not changed (70_reset_and_hazards.md R125). -/
def resetBlock (n : Nat) (refused : Bool) : Block where
  duty    := .ofFn fun _ => .ofFn fun _ => .absent
  pin     := .ofFn fun g => .ofFn fun c => Config.pinInit g c
  idx     := 0
  buf     := []
  phase   := .ready
  msg     := Config.resetMessage n
  refused := refused

/-- RESET, in either phase (R125). In AckWait it drops the operation held, and the pending acknowledgment counts as
transmitted or not by the draw `ackSent` (R126). -/
def resetEvent (ackSent : Bool) (s : State) : State :=
  { s with
    block   := resetBlock (s.draws + 1) s.block.refused
    draws   := s.draws + 1
    msgOut  := none
    offered := if s.block.phase = .ackWait then none else s.offered
    sent    := if s.block.phase = .ackWait ∧ ackSent = true then s.sent ++ [Config.ack] else s.sent }

end Sys2Proof.Machine
end

