-- ==== Sys2Proof/Machine/FrameDecoder.lean ====
section
/-!
DEFINITION. The frame decoder's operations: FEED and FEED_ERR (41_frame_decoder.md).
-/

namespace Sys2Proof.Machine

/-- `decode(buf)`: the Message of the 16 payload entries, each byte unchanged (30_encoding.md R52, 20_memory.md R37). -/
def decodeFrame (s : State) : Message :=
  .ofFn fun g => .ofFn fun c => memRead s (payloadEntry g c)

/-- `seek_take(d)`: the sentinel at index 0 (R87). -/
def seekTake (d : Byte) (s : State) : State :=
  setIdx 1 (memWrite 0 d s)

/-- `accumulate(d)`: a byte at index 1 to 15, whatever it is (R88). -/
def accumulate (d : Byte) (i : Fin 16) (s : State) : State :=
  setIdx i.succ (memWrite i.castSucc d s)

/-- `complete(d)`: the 17th byte. The Message is decoded from the buffer after this step's write (R89, R90), and the
acknowledgment is offered by the phase (`txValid`). -/
def complete (d : Byte) (s : State) : State :=
  let full := memWrite 16 d s
  setPhase .ackWait (setMsg (decodeFrame full) (setIdx 0 full))

/-- FEED's dispatch on the fill index (R85). -/
def feedByte (d : Byte) (s : State) : State :=
  if s.block.idx = 0 then
    if d = Config.sentinel then seekTake d s else s
  else if h : s.block.idx.val < 16 then accumulate d ⟨s.block.idx.val, h⟩ s
  else complete d s

/-- FEED d (R85). -/
def execFeed (d : Byte) (s : State) : Host.Outcome State Fault Refusal :=
  accept (feedByte d) s

/-- FEED_ERR d (R93): consumed; no state changes, and the byte's value is ignored. -/
def execFeedErr (_d : Byte) (s : State) : Host.Outcome State Fault Refusal :=
  accept (fun s => s) s

end Sys2Proof.Machine
end

