-- ==== Sys2Proof/Machine/Scheduler.lean ====
section
/-!
DEFINITION. The PWM scheduler's operations: TICK and SET_COLOR (40_pwm_scheduler.md).
-/

namespace Sys2Proof.Machine

/-- `tick1(d, L, p)`: one channel's level after a TICK (R69). -/
def tick1 (d : Duty) (l : Level) (p : PosField) : Level :=
  if p = 0 then (if d = .absent then .low else .high)
  else if dutyMatches p d then .low
  else l

/-- Every channel moves to position `p` (R68), all pins in the same step (R70). -/
def tickAll (p : PosField) (s : State) : State :=
  setPins (fun g c => tick1 (dutyAt s g c) (pinAt s g c) p) s

/-- TICK p (R68). A position of 100 to 127 is refused (30_encoding.md R62; the word recorded is the term's own: log 15). -/
def execTick (p : PosField) (s : State) : Host.Outcome State Fault Refusal :=
  accept (fun s =>
    if p.Legal then tickAll p s
    else markRefused (.positionOutOfRange (encode (.tick p))) s) s

/-- SET_COLOR g, color (R67): the group's four duty registers; no pin (R71). -/
def execSetColor (g : Group) (color : Color) (s : State) : Host.Outcome State Fault Refusal :=
  accept (setDuty g (encColor color)) s

end Sys2Proof.Machine
end

