-- ==== Sys2Proof/Machine/Dispatch.lean ====
section
/-!
DEFINITION. The meaning of every instruction, one arm for each row of spec/opcode_table.json.
-/

namespace Sys2Proof.Machine

def exec (i : Instr) (s : State) : Host.Outcome State Fault Refusal :=
  match i with
  | .tick p => Sys2Proof.Machine.execTick p s
  | .feed d => Sys2Proof.Machine.execFeed d s
  | .feedErr d => Sys2Proof.Machine.execFeedErr d s
  | .setColor g color => Sys2Proof.Machine.execSetColor g color s

end Sys2Proof.Machine
end

