-- ==== Sys2Proof/Machine/Step.lean ====
section
/-!
DEFINITION. One step of the machine: the next move of the schedule (60_exceptions.md R111), or nothing when no agent
moves.
-/

namespace Sys2Proof.Machine

/-- The host's turn: what is on the port is accepted, held or refused (R106). -/
def hostTurn (s : State) : Host.Outcome State Fault Refusal :=
  match answer s with
  | .nothing => .next s
  | .held => .next s
  | .refused r => .next (refuseWord r s)
  | .accepted i => exec i s

/-- One step (00_scope.md R12). With no move scheduled no agent steps, and the state waits as it is but for the message
port, which is valid for one step only (log 2, log 11). -/
def step (s : State) : Host.Outcome State Fault Refusal :=
  match s.moves with
  | [] => .next (beginStep [] s)
  | .host :: ms => hostTurn (present (beginStep ms s))
  | .txAccept :: ms => .next (txAccept (beginStep ms s))
  | .reset ackSent :: ms => .next (resetEvent ackSent (beginStep ms s))

/-- The word `w` on the operation port and the host's turn next: what `step` fetches and runs (log 3). A command word
has 40 bits (30_encoding.md R64); the bits above `nbits` are 0. -/
def State.withFetchWord (s : State) (nbits w : Nat) : State :=
  { s with offered := some (BitVec.ofNat 40 (w % 2 ^ nbits)), moves := .host :: s.moves }

end Sys2Proof.Machine
end

