-- ==== Sys2Proof/Machine/Events.lean ====
section
/-!
DEFINITION. The block's accepted steps as a list: host operations, TX_ACCEPT and RESET, each taken only where it is
enabled (60_exceptions.md R111). A listing of 30_encoding.md R65 stands for such a list.
-/

namespace Sys2Proof.Machine

/-- A step the block can take. -/
inductive Event where
  /-- A host operation that is accepted. -/
  | op (i : Instr)
  /-- The transmitter's step. -/
  | txAccept
  /-- The RESET event, with its draw (70_reset_and_hazards.md R126). -/
  | reset (ackSent : Bool)
deriving DecidableEq, Repr

/-- Which steps are enabled depends only on the phase (R111). -/
def Event.enabled : Event → Phase → Bool
  | .op _, .ready => true
  | .op _, .ackWait => false
  | .txAccept, .ready => false
  | .txAccept, .ackWait => true
  | .reset _, _ => true

/-- The effect of one event, the message port cleared first as in `step`. -/
def eventEffect (e : Event) (s : State) : Option State :=
  match e with
  | .op i =>
    match exec i { s with msgOut := none } with
    | .next t => some t
    | .fault _ => none
    | .refused _ => none
  | .txAccept => some (txAccept { s with msgOut := none })
  | .reset ackSent => some (resetEvent ackSent { s with msgOut := none })

/-- One event; none where it is not enabled. -/
def applyEvent (e : Event) (s : State) : Option State :=
  if e.enabled s.block.phase then eventEffect e s else none

/-- A run of events, one after the other (20_memory.md R46). -/
def runEvents : List Event → State → Option State
  | [], s => some s
  | e :: es, s =>
    match applyEvent e s with
    | some t => runEvents es t
    | none => none

/-- The positions of a run's TICKs, in order. -/
def tickPositions : List Event → List Nat
  | [] => []
  | .op (.tick p) :: es => p.toNat :: tickPositions es
  | _ :: es => tickPositions es

/-- The level of channel `(g, c)` after each TICK of a run, in order: its level "at" that position (00_scope.md R14). -/
def levelsAtTicks (g : Group) (c : Channel) : List Event → State → List Level
  | [], _ => []
  | e :: es, s =>
    match applyEvent e s, e with
    | none, _ => []
    | some t, .op (.tick _) => pinAt t g c :: levelsAtTicks g c es t
    | some t, _ => levelsAtTicks g c es t

/-- The bytes of a run's FEEDs, in order (FEED_ERRs not counted). -/
def fedBytes : List Event → List Byte
  | [] => []
  | .op (.feed d) :: es => d :: fedBytes es
  | _ :: es => fedBytes es

/-- A run in which no RESET occurs and no SET_COLOR of group `g` (40_pwm_scheduler.md section 2: "with no SET_COLOR in
between for the channel considered"). -/
def leavesDuty (g : Group) : List Event → Bool
  | [] => true
  | .op (.setColor k _) :: es => decide (k ≠ g) && leavesDuty g es
  | .reset _ :: _ => false
  | _ :: es => leavesDuty g es

end Sys2Proof.Machine
end

