-- ==== Sys2Proof/Machine/Driver.lean ====
section
/-!
DEFINITION. The pseudo-instructions of 30_encoding.md R66 and the reference driver of 92_eei_decisions.md D12, as lists
of events and runs over them. They are the host's, not the block's: `step` uses none of them.
-/

namespace Sys2Proof.Machine

/-- The 16 bytes of a Message in wire order (20_memory.md R40). -/
def payloadBytes (m : Message) : List Byte :=
  [m.group1, m.group2, m.group3, m.group4].flatMap fun k => [k.red, k.green, k.blue, k.white]

/-- FEEDs of a list of bytes. -/
def feeds (bs : List Byte) : List Event := bs.map fun b => .op (.feed b)

/-- `FRAME b1, ..., b16`: the sentinel, then the payload (R66). -/
def frame (m : Message) : List Event := feeds (Config.sentinel :: payloadBytes m)

/-- The TICK of a position. -/
def tickOf (p : Nat) : Event := .op (.tick (BitVec.ofNat 7 p))

/-- `RUN p0, n` (R66). -/
def runTicks (p0 n : Nat) : List Event :=
  (List.range n).map fun i => tickOf ((p0 + i) % Config.cycle)

/-- `CYCLE` (R66). -/
def fullCycle : List Event := runTicks 0 Config.cycle

/-- `APPLY m`: each group's Color, group 1 first (R66, 41_frame_decoder.md R98). -/
def applyMessage (m : Message) : List Event :=
  [.op (.setColor .group1 m.group1), .op (.setColor .group2 m.group2),
   .op (.setColor .group3 m.group3), .op (.setColor .group4 m.group4)]

/-- A byte from the serial receiver (10_state.md R28): good, or flagged as faulty. -/
inductive Received where
  | good (b : Byte)
  | flagged (b : Byte)
deriving DecidableEq, Repr

/-- What the host does with the receiver's answer: FEED, FEED_ERR, or nothing when no byte is available (R28,
60_exceptions.md R119). -/
def receiveEvents : Option Received → List Event
  | none => []
  | some (.good b) => [.op (.feed b)]
  | some (.flagged b) => [.op (.feedErr b)]

/-- Iteration `i` of the reference driver (60_exceptions.md R112, D12): a TICK, then at most one byte; where that
completed a frame, the transmitter accepts and the Message is applied before the next TICK. -/
def driverIteration (i : Nat) (rx : Option Received) (s : State) : Option State :=
  match runEvents (tickOf (i % Config.cycle) :: receiveEvents rx) s with
  | none => none
  | some t =>
    match t.block.phase with
    | .ready => some t
    | .ackWait => runEvents (.txAccept :: applyMessage t.block.msg) t

/-- The reference driver from iteration `i` on, one entry of `rxs` an iteration. -/
def driverRun : Nat → List (Option Received) → State → Option State
  | _, [], s => some s
  | i, rx :: rxs, s =>
    match driverIteration i rx s with
    | none => none
    | some t => driverRun (i + 1) rxs t

end Sys2Proof.Machine
end

