-- ==== Sys2Proof/Safety.lean ====
section
/-!
DEFINITION. What counts as a safe run: runs of `step`, the premise that nothing was refused (60_exceptions.md R109), the
invariant of every step boundary (41_frame_decoder.md R103), the host's duties (60_exceptions.md R119), the
transmitter's fairness (R123), and what a step is about to accept.
-/

namespace Sys2Proof.Machine

/-- An infinite run of the machine. -/
def IsRun (r : Nat → State) : Prop := ∀ n, step (r n) = .next (r (n + 1))

/-- No refusal is recorded: the premise of a claim about a run (R109). -/
abbrev NoRefusal (s : State) : Prop := s.block.refused = false

/-- What holds at every step boundary (10_state.md R20, R33; 20_memory.md R35, R38; 41_frame_decoder.md R103). -/
structure Inv (s : State) : Prop where
  /-- The buffer is in canonical form. -/
  bufferCanonical : s.block.buf.wf = true
  /-- While accumulating, entry 0 holds the sentinel (R103). -/
  sentinelStored : s.block.idx ≠ 0 → s.block.buf.read 0 = some Config.sentinel
  /-- Every entry below the fill index has been written (R38, R103). -/
  framePrefixWritten : ∀ i : Fin 17, i < s.block.idx → (s.block.buf.read i).isSome = true
  /-- In AckWait the decoder is back at index 0 (R103). -/
  waitingSeeks : s.block.phase = .ackWait → s.block.idx = 0
  /-- In AckWait the message register holds the Message of the buffer (R103). -/
  waitingHoldsFrame : s.block.phase = .ackWait → s.block.msg = decodeFrame s
  /-- In AckWait every payload entry has been written (R38). -/
  waitingFrameWritten :
    s.block.phase = .ackWait → ∀ g c, (s.block.buf.read (payloadEntry g c)).isSome = true
  /-- No byte but the acknowledgment was ever transmitted (30_encoding.md R53). -/
  onlyAcksSent : ∀ b ∈ s.sent, b = Config.ack
  /-- The sticky mark is set exactly when a refusal is recorded (R107, R109). -/
  markMatchesRecord : s.block.refused = true ↔ s.refusals ≠ []

/-- The operation the next step accepts, if it accepts one. -/
def acceptedOp (s : State) : Option Instr :=
  match s.moves with
  | .host :: ms =>
    match answer (present (beginStep ms s)) with
    | .accepted i => some i
    | _ => none
  | _ => none

/-- The next step is a completing FEED (41_frame_decoder.md R89). -/
def completesFrame (s : State) : Bool :=
  match acceptedOp s with
  | some (.feed _) => decide (s.block.idx = 16)
  | _ => false

/-- The next step is RESET. -/
def takesReset (s : State) : Bool :=
  match s.moves with
  | .reset _ :: _ => true
  | _ => false

/-- The scheduler's state is as it was: every duty register and every pin. -/
structure SchedulerKept (s t : State) : Prop where
  duties : ∀ g c, dutyAt t g c = dutyAt s g c
  pins : ∀ g c, pinAt t g c = pinAt s g c

/-- Every byte of the frame buffer reads as it did. -/
def BufferKept (s t : State) : Prop := ∀ i : Fin 17, memRead t i = memRead s i

/-- The decoder's state is as it was: index, every byte of the buffer, phase and message register. -/
structure DecoderKept (s t : State) : Prop where
  idx : t.block.idx = s.block.idx
  buffer : BufferKept s t
  phase : t.block.phase = s.block.phase
  msg : t.block.msg = s.block.msg

/-- The refusal mark and record are as they were. -/
structure MarksKept (s t : State) : Prop where
  refused : t.block.refused = s.block.refused
  record : t.refusals = s.refusals

/-- What an operation on the port does not touch is as it was: the message port, the transmitted bytes, the host's
stream, the schedule and the count of RESETs. -/
structure SurroundingsKept (s t : State) : Prop where
  msgOut : t.msgOut = s.msgOut
  sent : t.sent = s.sent
  stream : t.stream = s.stream
  moves : t.moves = s.moves
  draws : t.draws = s.draws

/-- How many of a run's first `n` steps satisfy `p`. -/
def countSteps (p : State → Bool) (r : Nat → State) : Nat → Nat
  | 0 => 0
  | n + 1 => countSteps p r n + (if p (r n) then 1 else 0)

/-- How many bytes the block begins to offer on the transmit port in a run's first `n` steps. -/
def countOffers (r : Nat → State) : Nat → Nat
  | 0 => 0
  | n + 1 => countOffers r n + (if txValid (r n) = false ∧ txValid (r (n + 1)) = true then 1 else 0)

/-- Weak fairness of the transmitter (R123, 92_eei_decisions.md D20): a byte offered is accepted at some later step,
or a RESET comes first. -/
def TransmitterFair (r : Nat → State) : Prop :=
  ∀ n, (r n).block.phase = .ackWait →
    ∃ m, n ≤ m ∧ ((r m).moves.head? = some .txAccept ∨ takesReset (r m) = true)

/-- Duty 2 of the host (R119): every operation it issues is one the encoding admits. -/
def OpsLegal (es : List Event) : Prop := ∀ i, Event.op i ∈ es → i.WellFormed

/-- Duty 3 of the host (R117, R119): the positions advance by one modulo 100. -/
def positionsInOrder : List Nat → Bool
  | p :: q :: ps => decide (q = (p + 1) % Config.cycle) && positionsInOrder (q :: ps)
  | _ => true

/-- The schedule entry an event stands for. -/
def Event.move : Event → Move
  | .op _ => .host
  | .txAccept => .txAccept
  | .reset ackSent => .reset ackSent

/-- The command words of a run's operations, in order. -/
def eventWords : List Event → List CmdWord
  | [] => []
  | .op i :: es => encode i :: eventWords es
  | _ :: es => eventWords es

/-- The state with a run of events before it: the operations' words in the host's stream, and every event's move
in the schedule. -/
def loadEvents (es : List Event) (s : State) : State :=
  { s with offered := none, stream := eventWords es, moves := es.map Event.move }

end Sys2Proof.Machine
end

