-- ==== Sys2Proof/Certificates/Slice0/Obligations.lean ====
section
/-!
DEFINITION. The statements for the provers, one definition each, in the order of spec/: encoding, scheduler, decoder,
handshake, whole-machine rules, reset, invariants. Each docstring names the rules it formalises.
-/

open Sys2Proof Sys2Proof.Machine

/-! ### Encoding and the operation port -/

/-- R58 to R61: the decoder reads back every well-formed instruction from its word, every operand at every value. -/
def Obligations.DecodeEncodeAgree : Prop :=
  ∀ i : Instr, i.WellFormed → decode (encode i) = .ok i

/-- R57 to R62: a word that decodes is the word of a well-formed instruction, so no two words mean the same. -/
def Obligations.EncodeDecodeAgree : Prop :=
  ∀ (w : CmdWord) (i : Instr), decode w = .ok i → i.WellFormed ∧ encode i = w

/-- R107: which words are refused, by which reason, in the order ReservedOpcode, ReservedBits, PositionOutOfRange; each
reason carries the word, and a step that refuses the word appends the reason to the refusal record. Fields are read off the word as a number, not through the decoder's own field functions. -/
def Obligations.RefusalReasonsOfWords : Prop :=
  ∀ w : CmdWord,
    let op := w.toNat / 2 ^ 36
    (decode w = .error (.reservedOpcode w) ↔ op = 0 ∨ 5 ≤ op) ∧
    (decode w = .error (.reservedBits w) ↔
      (op = 1 ∧ w.toNat / 2 ^ 7 % 2 ^ 29 ≠ 0) ∨ ((op = 2 ∨ op = 3) ∧ w.toNat / 2 ^ 8 % 2 ^ 28 ≠ 0) ∨
      (op = 4 ∧ w.toNat / 2 ^ 34 % 2 ^ 2 ≠ 0)) ∧
    (decode w = .error (.positionOutOfRange w) ↔
      op = 1 ∧ w.toNat / 2 ^ 7 % 2 ^ 29 = 0 ∧ 100 ≤ w.toNat % 2 ^ 7) ∧
    (∀ r, decode w = .error r →
      r = .reservedOpcode w ∨ r = .reservedBits w ∨ r = .positionOutOfRange w) ∧
    (∀ (s : State) (ms : List Move) (r : WordRefusal), s.moves = .host :: ms → s.block.phase = .ready →
      (present s).offered = some w → decode w = .error r →
      ∃ t, step s = .next t ∧ t.refusals = s.refusals ++ [r])

/-- 95_test_vectors.md V12: words written out from the formats decode to the instructions they stand for. -/
def Obligations.SampleWordsDecode : Prop :=
  decode 0x1000000063 = .ok (.tick 99) ∧ decode 0x20000000FF = .ok (.feed 0xFF) ∧
  decode 0x3000000055 = .ok (.feedErr 0x55) ∧
  decode 0x430A141E28 = .ok (.setColor .group4 ⟨10, 20, 30, 40⟩) ∧
  decode 0x1800000064 = .error (.reservedBits 0x1800000064) ∧ decode 0x5000000000 = .error (.reservedOpcode 0x5000000000)

/-- R24, R30, R57: on the host's turn, a step runs the instruction the offered word decodes to, at the state in which
the move is taken from the schedule, the message port of the step before has ended and the word is on the port; nothing
of the block is different there. -/
def Obligations.StepRunsOfferedOperation : Prop :=
  ∀ (s : State) (ms : List Move) (w : CmdWord) (i : Instr),
    s.moves = .host :: ms → (present s).offered = some w → decode w = .ok i →
    ∃ u, step s = exec i u ∧ u.block = s.block ∧ u.offered = some w ∧ u.stream = (present s).stream ∧
      u.msgOut = none ∧ u.moves = ms ∧ u.sent = s.sent ∧ u.refusals = s.refusals ∧ u.draws = s.draws

/-- R108: a refused word changes no architectural state, offers nothing on a port, and is consumed. -/
def Obligations.RefusedWordChangesNoState : Prop :=
  ∀ (s : State) (ms : List Move) (w : CmdWord) (r : WordRefusal),
    s.moves = .host :: ms → s.block.phase = .ready → (present s).offered = some w → decode w = .error r →
    ∃ t, step s = .next t ∧ SchedulerKept s t ∧ DecoderKept s t ∧ txValid t = false ∧ t.msgOut = none ∧
      t.offered = none ∧ t.block.refused = true ∧ t.refusals = s.refusals ++ [r] ∧
      t.stream = (present s).stream ∧ t.sent = s.sent ∧ t.moves = ms ∧ t.draws = s.draws

/-- R109: a refused word sets the mark, and no later step, RESET included, clears it. -/
def Obligations.RefusalMarkIsSticky : Prop :=
  (∀ (s t : State) (ms : List Move) (w : CmdWord) (r : WordRefusal),
    s.moves = .host :: ms → s.block.phase = .ready → (present s).offered = some w → decode w = .error r →
    step s = .next t → t.block.refused = true) ∧
  (∀ r : Nat → State, IsRun r → ∀ n m, n ≤ m → (r n).block.refused = true → (r m).block.refused = true)

/-! ### The PWM scheduler -/

/-- R54, R55: `enc` gives Absent for 0 and Present(b) for every other byte b, and a duty register stores that byte:
the two are in bijection. -/
def Obligations.DutyEncodingIsBijective : Prop :=
  enc 0 = .absent ∧ (∀ (b : Byte) (h : b ≠ 0), enc b = .present ⟨b, h⟩) ∧
  (∀ b : Byte, storedByte (enc b) = b) ∧ (∀ d : Duty, enc (storedByte d) = d)

/-- R67: SET_COLOR writes one group's four duty registers with `enc` of the Color's bytes; no pin, no other group,
nothing of the decoder. In AckWait it is held. -/
def Obligations.SetColorWritesOneGroup : Prop :=
  ∀ (s : State) (g : Group) (color : Color),
    (s.block.phase = .ready →
      ∃ t, exec (.setColor g color) s = .next t ∧ (∀ c, dutyAt t g c = enc (color.get c)) ∧
        (∀ k c, k ≠ g → dutyAt t k c = dutyAt s k c) ∧ (∀ k c, pinAt t k c = pinAt s k c) ∧
        DecoderKept s t ∧ MarksKept s t ∧ SurroundingsKept s t ∧ t.offered = none) ∧
    (s.block.phase = .ackWait → exec (.setColor g color) s = .next s)

/-- R68, R69, R70: TICK p gives all 16 pins their new levels in one step: at position 0 Low for an absent duty and High
for a present one; else Low where the position equals the duty; else the level is kept. In AckWait it is held. -/
def Obligations.TickMovesEveryPin : Prop :=
  ∀ (s : State) (p : PosField), p.toNat ≤ 99 →
    (s.block.phase = .ready →
      ∃ t, exec (.tick p) s = .next t ∧
        (∀ g c, pinAt t g c =
          if p.toNat = 0 then (if dutyAt s g c = .absent then .low else .high)
          else if (storedByte (dutyAt s g c)).toNat = p.toNat then .low
          else pinAt s g c) ∧
        (∀ g c, dutyAt t g c = dutyAt s g c) ∧ DecoderKept s t ∧ MarksKept s t ∧ SurroundingsKept s t ∧
        t.offered = none) ∧
    (s.block.phase = .ackWait → exec (.tick p) s = .next s)

/-- The model's own choice for a TICK term outside 0 to 99, which no word decodes to (log 15): it is refused and recorded
with its word, as the word is (60_exceptions.md section 1), and no pin moves. -/
def Obligations.TickTermOutOfRangeIsRefused : Prop :=
  ∀ (s : State) (p : PosField), 100 ≤ p.toNat → s.block.phase = .ready →
    ∃ t, exec (.tick p) s = .next t ∧ t.block.refused = true ∧
      t.refusals = s.refusals ++ [.positionOutOfRange (encode (.tick p))] ∧ t.offered = none ∧
      SchedulerKept s t ∧ DecoderKept s t ∧ SurroundingsKept s t

/-- R45: TICK, SET_COLOR and FEED_ERR applied twice in a row leave the same state as once. -/
def Obligations.TickSetColorFeedErrIdempotent : Prop :=
  ∀ (s t : State) (i : Instr), i.WellFormed → (∀ d, i ≠ .feed d) → exec i s = .next t → exec i t = .next t

/-- R72: the next TICK after a SET_COLOR reads the duty the SET_COLOR wrote, whatever the position and whatever steps
come between that are no TICK, no RESET and no SET_COLOR of that group. -/
def Obligations.SetColorSeenByNextTick : Prop :=
  ∀ (s t : State) (g : Group) (color : Color) (es : List Event) (p : PosField) (c : Channel),
    p.toNat ≤ 99 → tickPositions es = [] → leavesDuty g es = true →
    runEvents (.op (.setColor g color) :: es ++ [.op (.tick p)]) s = some t →
    pinAt t g c = tick1 (enc (color.get c)) (pinAt s g c) p

/-- R75, R76, R78: the level of a channel at position q of a full in-order cycle, the duty untouched and any other steps
between. Brightness 1 to 99: High at 0 to b - 1, Low from b on. Absent: Low at every position. 100 to 255: High at every
position. -/
def Obligations.FullCycleDutyLaw : Prop :=
  ∀ (es : List Event) (s t : State) (g : Group) (c : Channel) (q : Nat),
    q ≤ 99 → tickPositions es = List.range (q + 1) → leavesDuty g es = true → runEvents es s = some t →
    (∀ v, dutyAt s g c = .present v → v.val.toNat ≤ 99 → q < v.val.toNat → pinAt t g c = .high) ∧
    (∀ v, dutyAt s g c = .present v → v.val.toNat ≤ 99 → v.val.toNat ≤ q → pinAt t g c = .low) ∧
    (dutyAt s g c = .absent → pinAt t g c = .low) ∧
    (∀ v, dutyAt s g c = .present v → 100 ≤ v.val.toNat → pinAt t g c = .high)

/-- R84: over a full in-order cycle with the duty untouched, other steps between or not, a channel is High at exactly
`min(b, 100)` positions, for brightness b; and such a cycle runs from every state in Ready. -/
def Obligations.HighCountIsDuty : Prop :=
  (∀ s : State, s.block.phase = .ready →
    ∃ t, runEvents fullCycle s = some t ∧ t.block.phase = .ready) ∧
  ∀ (es : List Event) (s t : State) (g : Group) (c : Channel),
    tickPositions es = List.range 100 → leavesDuty g es = true → runEvents es s = some t →
    (levelsAtTicks g c es s).length = 100 ∧
    ((levelsAtTicks g c es s).filter (· = .high)).length = min (storedByte (dutyAt s g c)).toNat 100

/-- R77: a SET_COLOR between TICK p and TICK p + 1, the cycle going on in order to position q with no further change. A Low
channel stays Low; a High one with a new duty in p + 1 to 99 is High before it and Low from it on; a High one with any
other new duty stays High. From the next TICK 0 on the new duty governs: at position k of the next cycle the channel is
High while k is below the new brightness, Low from it on. -/
def Obligations.MidCycleDutyChange : Prop :=
  ∀ (s t : State) (g : Group) (color : Color) (c : Channel) (es : List Event) (p q : Nat),
    p < q → q ≤ 99 → tickPositions es = List.range' (p + 1) (q - p) → leavesDuty g es = true →
    runEvents (.op (.setColor g color) :: es) s = some t →
    (pinAt s g c = .low → pinAt t g c = .low) ∧
    (pinAt s g c = .high → p < (color.get c).toNat → (color.get c).toNat ≤ 99 →
      pinAt t g c = if q < (color.get c).toNat then .high else .low) ∧
    (pinAt s g c = .high → ((color.get c).toNat ≤ p ∨ 100 ≤ (color.get c).toNat) → pinAt t g c = .high) ∧
    (∀ (es' : List Event) (u : State) (k : Nat), k ≤ 99 → tickPositions es' = List.range (k + 1) →
      leavesDuty g es' = true → runEvents es' t = some u →
      pinAt u g c = if k < (color.get c).toNat then .high else .low)

/-- R79, R80, R134: while no TICK has position 0 a channel keeps its level, but for a TICK at its duty position, which
drives it Low; positions may come in any order, repeat or be skipped. -/
def Obligations.LevelsWithoutPositionZero : Prop :=
  ∀ (es : List Event) (s t : State) (g : Group) (c : Channel),
    0 ∉ tickPositions es → (∀ p ∈ tickPositions es, p ≤ 99) → leavesDuty g es = true → runEvents es s = some t →
    ((∃ v, dutyAt s g c = .present v ∧ v.val.toNat ∈ tickPositions es) → pinAt t g c = .low) ∧
    ((∀ v, dutyAt s g c = .present v → v.val.toNat ∉ tickPositions es) → pinAt t g c = pinAt s g c)

/-- R82: the level TICK gives a channel depends only on its own duty, its own level and the position; SET_COLOR of a group
writes no other group's registers. -/
def Obligations.ChannelsAreIndependent : Prop :=
  (∀ (s s' t t' : State) (g : Group) (c : Channel) (p : PosField),
    p.toNat ≤ 99 → s.block.phase = .ready → s'.block.phase = .ready → dutyAt s g c = dutyAt s' g c →
    pinAt s g c = pinAt s' g c → exec (.tick p) s = .next t → exec (.tick p) s' = .next t' →
    pinAt t g c = pinAt t' g c) ∧
  (∀ (s t : State) (g k : Group) (color : Color) (c : Channel),
    k ≠ g → exec (.setColor g color) s = .next t → dutyAt t k c = dutyAt s k c)

/-- R83: after `SET_COLOR 1, 0, 0, 0, 100`, at every position of a full in-order cycle group 1's red, green and blue pins
are Low and its white pin High. -/
def Obligations.SourceSchedulerScenario : Prop :=
  ∀ (s : State) (q : Nat), s.block.phase = .ready → q ≤ 99 →
    ∃ t, runEvents (.op (.setColor .group1 ⟨0, 0, 0, 100⟩) :: runTicks 0 (q + 1)) s = some t ∧
      pinAt t .group1 .red = .low ∧ pinAt t .group1 .green = .low ∧ pinAt t .group1 .blue = .low ∧
      pinAt t .group1 .white = .high

/-- R74: TICK and SET_COLOR leave the decoder's state and offer nothing on the transmit port. -/
def Obligations.SchedulerLeavesDecoder : Prop :=
  ∀ (s t : State) (i : Instr), ((∃ p, i = .tick p) ∨ ∃ g color, i = .setColor g color) → exec i s = .next t →
    DecoderKept s t ∧ txValid t = txValid s ∧ SurroundingsKept s t

/-! ### The frame decoder -/

/-- R86, R87: at index 0 a byte other than 0xFF is discarded with no state changed, and 0xFF is stored at entry 0 and the
index becomes 1. -/
def Obligations.FeedWhileSeeking : Prop :=
  ∀ (s : State) (d : Byte), s.block.phase = .ready → s.block.idx = 0 →
    (d ≠ 0xFF → ∃ t, exec (.feed d) s = .next t ∧ t.block = s.block ∧ BufferKept s t ∧ t.offered = none ∧
      MarksKept s t ∧ SurroundingsKept s t) ∧
    (d = 0xFF → ∃ t, exec (.feed d) s = .next t ∧ memRead t 0 = 0xFF ∧ t.block.idx = 1 ∧
      (∀ i, i ≠ 0 → memRead t i = memRead s i) ∧ t.block.phase = .ready ∧ t.block.msg = s.block.msg ∧
      SchedulerKept s t ∧ MarksKept s t ∧ SurroundingsKept s t ∧ t.offered = none)

/-- R88: at index 1 to 15 a byte is stored at the index, whatever it is (0xFF included), and the index advances. -/
def Obligations.FeedAccumulates : Prop :=
  ∀ (s : State) (d : Byte), s.block.phase = .ready → 1 ≤ s.block.idx.val → s.block.idx.val ≤ 15 →
    ∃ t, exec (.feed d) s = .next t ∧ memRead t s.block.idx = d ∧ t.block.idx.val = s.block.idx.val + 1 ∧
      (∀ i, i ≠ s.block.idx → memRead t i = memRead s i) ∧ t.block.phase = .ready ∧
      t.block.msg = s.block.msg ∧ SchedulerKept s t ∧ MarksKept s t ∧ SurroundingsKept s t ∧ t.offered = none

/-- R89, R90, R52: the byte at index 16 is stored, the Message is decoded from the 16 payload entries with all four bytes
of every group, the index returns to 0, and 0xFF is offered in AckWait; no Message is presented in this step. -/
def Obligations.FeedCompletesFrame : Prop :=
  ∀ (s : State) (d : Byte), s.block.phase = .ready → s.block.idx = 16 →
    ∃ t, exec (.feed d) s = .next t ∧ memRead t 16 = d ∧ (∀ i, i ≠ 16 → memRead t i = memRead s i) ∧
      t.block.idx = 0 ∧ t.block.phase = .ackWait ∧ txValid t = true ∧ txData t = some 0xFF ∧
      t.block.msg =
        ⟨⟨memRead s 1, memRead s 2, memRead s 3, memRead s 4⟩,
         ⟨memRead s 5, memRead s 6, memRead s 7, memRead s 8⟩,
         ⟨memRead s 9, memRead s 10, memRead s 11, memRead s 12⟩,
         ⟨memRead s 13, memRead s 14, memRead s 15, d⟩⟩ ∧
      SchedulerKept s t ∧ MarksKept s t ∧ SurroundingsKept s t ∧ t.offered = none

/-- R93: FEED_ERR is consumed and changes no state, whatever its byte and the index. In AckWait it is held. -/
def Obligations.FeedErrIsDiscarded : Prop :=
  ∀ (s : State) (d : Byte),
    (s.block.phase = .ready →
      ∃ t, exec (.feedErr d) s = .next t ∧ t.block = s.block ∧ BufferKept s t ∧ txValid t = false ∧ t.offered = none ∧
        MarksKept s t ∧ SurroundingsKept s t) ∧
    (s.block.phase = .ackWait → exec (.feedErr d) s = .next s)

/-- R38: the Message of a completing FEED is made of bytes this frame wrote: it is the same whatever the free values of
the entries nothing has written. -/
def Obligations.CompletedMessageIgnoresFreeValues : Prop :=
  ∀ (s : State) (d : Byte) (n : Nat), Inv s → s.block.phase = .ready → s.block.idx = 16 →
    ∃ t u, exec (.feed d) s = .next t ∧ exec (.feed d) { s with draws := n } = .next u ∧
      t.block.msg = u.block.msg

/-- R100, R101: from index 0, any bytes other than 0xFF and then one aligned frame give no Message before the last FEED, and
exactly one after it, the frame's own, presented by the TX_ACCEPT that follows. The payload may hold 0xFF anywhere. -/
def Obligations.ResyncRobustness : Prop :=
  ∀ (s : State) (garbage : List Byte) (m : Message),
    s.block.phase = .ready → s.block.idx = 0 → (∀ b ∈ garbage, b ≠ 0xFF) →
    (∀ n, n < garbage.length + 17 →
      ∃ t, runEvents ((feeds garbage ++ frame m).take n) s = some t ∧ t.block.phase = .ready ∧
        (0 < n → t.msgOut = none)) ∧
    (∃ t, runEvents (feeds garbage ++ frame m) s = some t ∧ t.block.phase = .ackWait ∧ t.block.msg = m ∧
      t.block.idx = 0 ∧ t.msgOut = none) ∧
    (∃ u, runEvents (feeds garbage ++ frame m ++ [.txAccept]) s = some u ∧ u.block.phase = .ready ∧
      u.msgOut = some m ∧ u.sent = s.sent ++ [0xFF])

/-- R102: a frame short of its last payload byte, then a complete frame. The second frame's sentinel is stored as the last
payload byte and completes a Message that is delivered and acknowledged; the second frame's payload, where it holds no
0xFF, is discarded. -/
def Obligations.LostByteMisalignsStream : Prop :=
  ∀ (s : State) (m next : Message), s.block.phase = .ready → s.block.idx = 0 →
    (∀ b ∈ payloadBytes next, b ≠ 0xFF) →
    ∃ t u, runEvents ((frame m).take 16 ++ (frame next).take 1 ++ [.txAccept]) s = some t ∧
      t.msgOut = some { m with group4 := { m.group4 with white := 0xFF } } ∧
      runEvents ((frame next).drop 1) t = some u ∧ u.block = t.block ∧ u.block.idx = 0 ∧
      u.msgOut = none ∧ u.sent = s.sent ++ [0xFF]

/-- R103, with R74, R88 and R93: from index i (1 to 16) on, after any steps with no RESET whose FEEDs bring bytes that
still fit, the index has advanced by their number, those bytes stand at i, i + 1, ... in order, and the entries below i
are as they were. TICKs, SET_COLORs and FEED_ERRs between do not matter. -/
def Obligations.FeedsAccumulateAcrossOtherSteps : Prop :=
  ∀ (es : List Event) (s t : State), s.block.phase = .ready → 1 ≤ s.block.idx.val →
    s.block.idx.val + (fedBytes es).length ≤ 16 → (∀ a, Event.reset a ∉ es) → runEvents es s = some t →
    t.block.phase = .ready ∧ t.block.idx.val = s.block.idx.val + (fedBytes es).length ∧
    (∀ i : Fin 17, i < s.block.idx → memRead t i = memRead s i) ∧
    (∀ (i : Fin 17) (k : Nat) (hk : k < (fedBytes es).length), i.val = s.block.idx.val + k →
      memRead t i = (fedBytes es)[k])

/-! ### The acknowledgment handshake -/

/-- R94: TX_ACCEPT in AckWait returns to Ready, delivers the message register on the message port, and the byte the
transmitter took is 0xFF; nothing else changes. -/
def Obligations.TxAcceptDeliversMessage : Prop :=
  ∀ (s : State) (ms : List Move), s.moves = .txAccept :: ms → s.block.phase = .ackWait →
    ∃ t, step s = .next t ∧ t.block.phase = .ready ∧ txValid t = false ∧ t.msgOut = some s.block.msg ∧
      t.sent = s.sent ++ [0xFF] ∧ t.block.idx = s.block.idx ∧ BufferKept s t ∧ t.block.msg = s.block.msg ∧
      SchedulerKept s t ∧ MarksKept s t ∧ t.offered = s.offered ∧ t.stream = s.stream ∧ t.moves = ms ∧
      t.draws = s.draws

/-- The model's own choice where no step is enabled (logs 2 and 14): with no move scheduled, with nothing offered on
the host's turn, or with a TX_ACCEPT scheduled in Ready, a step changes nothing but the schedule and the message port,
which ends. -/
def Obligations.StepWithNothingToDoWaits : Prop :=
  ∀ s : State,
    (s.moves = [] ∨ (s.moves.head? = some .host ∧ s.offered = none ∧ s.stream = []) ∨
      (s.moves.head? = some .txAccept ∧ s.block.phase = .ready)) →
    step s = .next { s with moves := s.moves.tail, msgOut := none }

/-- R97: in AckWait the block accepts none of the four operations: the state does not change and the operation stays
offered; and no step but TX_ACCEPT or RESET lifts the hold. -/
def Obligations.HoldDuringAckWait : Prop :=
  ∀ s : State, s.block.phase = .ackWait →
    (∀ i : Instr, exec i s = .next s) ∧
    (∀ (ms : List Move) (w : CmdWord) (i : Instr), s.moves = .host :: ms → (present s).offered = some w →
      decode w = .ok i →
      ∃ t, step s = .next t ∧ t.block = s.block ∧ t.offered = some w ∧ t.sent = s.sent ∧ t.refusals = s.refusals) ∧
    (∀ t : State, step s = .next t → t.block.phase = .ready →
      s.moves.head? = some .txAccept ∨ takesReset s = true)

/-- The model's reading of R111 for a word that is no operation (log 5): in AckWait it is held like any other. -/
def Obligations.IllegalWordHeldInAckWait : Prop :=
  ∀ (s : State) (ms : List Move) (w : CmdWord) (r : WordRefusal), s.moves = .host :: ms →
    s.block.phase = .ackWait → (present s).offered = some w → decode w = .error r →
    ∃ t, step s = .next t ∧ t.block = s.block ∧ t.offered = some w ∧ t.refusals = s.refusals ∧ t.sent = s.sent

/-- R22: AckWait is entered only by the FEED that completes a frame, and left only by TX_ACCEPT or by RESET; each of them
does enter or leave it. -/
def Obligations.PhaseChangesOnlyBy : Prop :=
  ∀ s t : State, step s = .next t →
    (s.block.phase = .ready → (t.block.phase = .ackWait ↔ completesFrame s = true)) ∧
    (s.block.phase = .ackWait →
      (t.block.phase = .ready ↔ s.moves.head? = some .txAccept ∨ takesReset s = true))

/-- R27: a Message is presented by a step exactly when it is the TX_ACCEPT that ends an AckWait, and it is the Message of
the message register; no other step presents one. -/
def Obligations.MessagePortValidForOneStep : Prop :=
  ∀ (s t : State) (m : Message), step s = .next t →
    (t.msgOut = some m ↔ s.moves.head? = some .txAccept ∧ s.block.phase = .ackWait ∧ m = s.block.msg)

/-- R96: over any run the bytes the block offers are as many as the completing FEEDs; and over a run with no RESET the bytes
transmitted, with the one still offered, count the same. -/
def Obligations.AckCountEqualsCompletedFrames : Prop :=
  ∀ r : Nat → State, IsRun r → ∀ n,
    countOffers r n = countSteps completesFrame r n ∧
    ((∀ k, k < n → takesReset (r k) = false) →
      (r n).sent.length + (if txValid (r n) = true then 1 else 0) =
        (r 0).sent.length + (if txValid (r 0) = true then 1 else 0) + countSteps completesFrame r n)

/-- R92: over a run with no RESET the Messages presented, with the one still held in AckWait, are as many as the completing
FEEDs: exactly one for each, and none from any other step. -/
def Obligations.OneMessagePerCompletedFrame : Prop :=
  ∀ r : Nat → State, IsRun r → ∀ n, (∀ k, k < n → takesReset (r k) = false) →
    countSteps msgValid (fun k => r (k + 1)) n + (if (r n).block.phase = .ackWait then 1 else 0) =
      (if (r 0).block.phase = .ackWait then 1 else 0) + countSteps completesFrame r n

/-- R123: a transmitter that never steps stalls the block forever: every host operation is held, the whole block is frozen,
pins included, and the byte stays offered. -/
def Obligations.StalledTransmitterFreezesBlock : Prop :=
  ∀ r : Nat → State, IsRun r → (r 0).block.phase = .ackWait → (∀ m ∈ (r 0).moves, m = .host) →
    ∀ n, (r n).block = (r 0).block ∧ txValid (r n) = true ∧ (r n).sent = (r 0).sent

/-- R123, 92_eei_decisions.md D20: under weak fairness of the transmitter every hold ends. -/
def Obligations.FairTransmitterEndsEveryHold : Prop :=
  ∀ r : Nat → State, IsRun r → TransmitterFair r → ∀ n, (r n).block.phase = .ackWait →
    ∃ m, n ≤ m ∧ (r m).block.phase = .ready

/-! ### Whole-machine rules -/

/-- R105: no operation has an error outcome and no condition is fatal: every step of every state answers a next state. -/
def Obligations.EveryStepAnswersNext : Prop :=
  ∀ s : State, ∃ t, step s = .next t

/-- R17 and R125: a duty register changes only in an accepted SET_COLOR of its group, which writes `enc` of the Color's
byte, or in a RESET. -/
def Obligations.DutyWrittenOnlyBySetColor : Prop :=
  ∀ (s t : State) (g : Group) (c : Channel), step s = .next t → dutyAt t g c ≠ dutyAt s g c →
    (∃ color, acceptedOp s = some (.setColor g color) ∧ dutyAt t g c = enc (color.get c)) ∨ takesReset s = true

/-- R18, R71 and R125: a pin changes only in an accepted TICK or in a RESET. -/
def Obligations.PinWrittenOnlyByTick : Prop :=
  ∀ (s t : State) (g : Group) (c : Channel), step s = .next t → pinAt t g c ≠ pinAt s g c →
    (∃ p, acceptedOp s = some (.tick p)) ∨ takesReset s = true

/-- R99: the fill index returns to 0 only by a completing FEED or by RESET. -/
def Obligations.IndexReturnsToZeroOnlyBy : Prop :=
  ∀ s t : State, step s = .next t → s.block.idx ≠ 0 → t.block.idx = 0 →
    completesFrame s = true ∨ takesReset s = true

/-- R66, R98, 92_eei_decisions.md D12: the host's APPLY of a Message sets every duty register to `enc` of the Message's byte,
moves no pin and leaves the decoder. -/
def Obligations.ApplyMessageSetsEveryDuty : Prop :=
  ∀ (s : State) (m : Message), s.block.phase = .ready →
    ∃ t, runEvents (applyMessage m) s = some t ∧ (∀ g c, dutyAt t g c = enc ((m.get g).get c)) ∧
      (∀ g c, pinAt t g c = pinAt s g c) ∧ DecoderKept s t ∧ MarksKept s t ∧ t.sent = s.sent

/-- R24, R30, R46, R111: a run of legal events is a run of `step`. With the operations' words in the host's stream and the
moves in the schedule, as many steps as there are events lead to the same block and the same outputs. -/
def Obligations.EventRunsAreStepRuns : Prop :=
  ∀ (es : List Event) (s t : State), OpsLegal es → runEvents es s = some t →
    ∃ u : State, Host.Core.run Sys2Proof.core es.length (loadEvents es s) = .next u ∧ u.block = t.block ∧
      u.msgOut = t.msgOut ∧ u.sent = t.sent ∧ u.refusals = t.refusals ∧ u.draws = t.draws ∧
      u.stream = [] ∧ u.moves = []

/-! ### Reset and the invariant -/

/-- R125: RESET, in either phase, sets every duty Absent, every pin to `PIN_INIT`, the index to 0 and the phase to Ready, keeps
the refusal mark, and drops an operation held in AckWait. -/
def Obligations.ResetEventSetsState : Prop :=
  ∀ (s : State) (ms : List Move) (a : Bool), s.moves = .reset a :: ms →
    ∃ t, step s = .next t ∧ (∀ g c, dutyAt t g c = .absent) ∧ (∀ g c, pinAt t g c = Config.pinInit g c) ∧
      t.block.idx = 0 ∧ t.block.phase = .ready ∧ txValid t = false ∧ t.msgOut = none ∧
      t.block.refused = s.block.refused ∧ (s.block.phase = .ackWait → t.offered = none)

/-- R126: at a RESET in AckWait the pending byte counts as transmitted or not by the draw, and the Message held is not
delivered. -/
def Obligations.ResetDuringAckWait : Prop :=
  ∀ (s : State) (ms : List Move) (a : Bool), s.moves = .reset a :: ms → s.block.phase = .ackWait →
    ∃ t, step s = .next t ∧ t.sent = (if a = true then s.sent ++ [0xFF] else s.sent) ∧ t.msgOut = none ∧
      t.block.phase = .ready

/-- R127: after RESET the decoder is seeking sync, and the first TICK 0 drives every pin Low. -/
def Obligations.FirstTickAfterResetDrivesLow : Prop :=
  ∀ (s : State) (a : Bool),
    ∃ t u, runEvents [.reset a] s = some t ∧ t.block.idx = 0 ∧ runEvents [.op (.tick 0)] t = some u ∧
      ∀ g c, pinAt u g c = .low

/-- 10_state.md section 7: the state after reset. The values of `buf` and `msg` are free and nothing is said of them; that
nothing is offered, transmitted or recorded is the model's choice (logs 3, 4 and 12). -/
def Obligations.ResetStateValues : Prop :=
  (∀ g c, dutyAt State.reset g c = .absent) ∧ (∀ g c, pinAt State.reset g c = Config.pinInit g c) ∧
  State.reset.block.idx = 0 ∧ State.reset.block.phase = .ready ∧ txValid State.reset = false ∧
  msgValid State.reset = false ∧ State.reset.block.refused = false ∧ State.reset.offered = none ∧
  State.reset.sent = [] ∧ State.reset.refusals = []

/-- R103, R38, R53, R109: every step keeps the invariant, from every state that has it. -/
def Obligations.StepKeepsInvariant : Prop :=
  ∀ s t : State, Inv s → step s = .next t → Inv t

/-- The state after reset has the invariant. The empty refusal record and history it rests on are the model's choice (logs 4
and 12). -/
def Obligations.ResetHasInvariant : Prop :=
  Inv State.reset
end

