-- ==== Sys2Proof/Laws/State.lean ====
section
/-!
SUPPORT. What each update of the state leaves in each field, one lemma per field per update, true by rfl; and the lemmas
of the two records (one value per channel, one per group).
-/

namespace Sys2Proof

@[simp] theorem Channels.get_ofFn {α : Type} (f : Channel → α) (c : Channel) : (Channels.ofFn f).get c = f c := by
  cases c <;> rfl

@[simp] theorem Groups.get_ofFn {α : Type} (f : Group → α) (g : Group) : (Groups.ofFn f).get g = f g := by
  cases g <;> rfl

theorem Channels.ext_get {α : Type} {x y : Channels α} (h : ∀ c, x.get c = y.get c) : x = y := by
  obtain ⟨a, b, c, d⟩ := x
  obtain ⟨a', b', c', d'⟩ := y
  have h1 : a = a' := h .red
  have h2 : b = b' := h .green
  have h3 : c = c' := h .blue
  have h4 : d = d' := h .white
  rw [h1, h2, h3, h4]

theorem Groups.ext_get {α : Type} {x y : Groups α} (h : ∀ g, x.get g = y.get g) : x = y := by
  obtain ⟨a, b, c, d⟩ := x
  obtain ⟨a', b', c', d'⟩ := y
  have h1 : a = a' := h .group1
  have h2 : b = b' := h .group2
  have h3 : c = c' := h .group3
  have h4 : d = d' := h .group4
  rw [h1, h2, h3, h4]

@[simp] theorem Groups.get_set {α : Type} (x : Groups α) (g k : Group) (v : α) :
    (x.set g v).get k = if k = g then v else x.get k := by
  simp [Groups.set]

namespace Machine

@[simp] theorem dutyAt_setDuty (s : State) (g k : Group) (c : Channel) (d : Channels Duty) :
    dutyAt (setDuty g d s) k c = if k = g then d.get c else dutyAt s k c := by
  simp only [dutyAt, setDuty, Groups.get_set]
  split <;> rfl

@[simp] theorem pinAt_setPins (s : State) (g : Group) (c : Channel) (f : Group → Channel → Level) :
    pinAt (setPins f s) g c = f g c := by
  simp [pinAt, setPins]

@[simp] theorem encColor_get (color : Color) (c : Channel) : (encColor color).get c = enc (color.get c) := by
  simp [encColor]

/-! ### memWrite -/

@[simp] theorem memWrite_duty (s : State) (i : Fin 17) (v : Byte) : (memWrite i v s).block.duty = s.block.duty := rfl
@[simp] theorem memWrite_pin (s : State) (i : Fin 17) (v : Byte) : (memWrite i v s).block.pin = s.block.pin := rfl
@[simp] theorem memWrite_idx (s : State) (i : Fin 17) (v : Byte) : (memWrite i v s).block.idx = s.block.idx := rfl
@[simp] theorem memWrite_buf (s : State) (i : Fin 17) (v : Byte) : (memWrite i v s).block.buf = s.block.buf.write i v := rfl
@[simp] theorem memWrite_phase (s : State) (i : Fin 17) (v : Byte) : (memWrite i v s).block.phase = s.block.phase := rfl
@[simp] theorem memWrite_msg (s : State) (i : Fin 17) (v : Byte) : (memWrite i v s).block.msg = s.block.msg := rfl
@[simp] theorem memWrite_refused (s : State) (i : Fin 17) (v : Byte) : (memWrite i v s).block.refused = s.block.refused := rfl
@[simp] theorem memWrite_offered (s : State) (i : Fin 17) (v : Byte) : (memWrite i v s).offered = s.offered := rfl
@[simp] theorem memWrite_msgOut (s : State) (i : Fin 17) (v : Byte) : (memWrite i v s).msgOut = s.msgOut := rfl
@[simp] theorem memWrite_sent (s : State) (i : Fin 17) (v : Byte) : (memWrite i v s).sent = s.sent := rfl
@[simp] theorem memWrite_refusals (s : State) (i : Fin 17) (v : Byte) : (memWrite i v s).refusals = s.refusals := rfl
@[simp] theorem memWrite_stream (s : State) (i : Fin 17) (v : Byte) : (memWrite i v s).stream = s.stream := rfl
@[simp] theorem memWrite_moves (s : State) (i : Fin 17) (v : Byte) : (memWrite i v s).moves = s.moves := rfl
@[simp] theorem memWrite_draws (s : State) (i : Fin 17) (v : Byte) : (memWrite i v s).draws = s.draws := rfl

/-! ### setDuty -/

@[simp] theorem setDuty_duty (s : State) (g : Group) (d : Channels Duty) : (setDuty g d s).block.duty = s.block.duty.set g d := rfl
@[simp] theorem setDuty_pin (s : State) (g : Group) (d : Channels Duty) : (setDuty g d s).block.pin = s.block.pin := rfl
@[simp] theorem setDuty_idx (s : State) (g : Group) (d : Channels Duty) : (setDuty g d s).block.idx = s.block.idx := rfl
@[simp] theorem setDuty_buf (s : State) (g : Group) (d : Channels Duty) : (setDuty g d s).block.buf = s.block.buf := rfl
@[simp] theorem setDuty_phase (s : State) (g : Group) (d : Channels Duty) : (setDuty g d s).block.phase = s.block.phase := rfl
@[simp] theorem setDuty_msg (s : State) (g : Group) (d : Channels Duty) : (setDuty g d s).block.msg = s.block.msg := rfl
@[simp] theorem setDuty_refused (s : State) (g : Group) (d : Channels Duty) : (setDuty g d s).block.refused = s.block.refused := rfl
@[simp] theorem setDuty_offered (s : State) (g : Group) (d : Channels Duty) : (setDuty g d s).offered = s.offered := rfl
@[simp] theorem setDuty_msgOut (s : State) (g : Group) (d : Channels Duty) : (setDuty g d s).msgOut = s.msgOut := rfl
@[simp] theorem setDuty_sent (s : State) (g : Group) (d : Channels Duty) : (setDuty g d s).sent = s.sent := rfl
@[simp] theorem setDuty_refusals (s : State) (g : Group) (d : Channels Duty) : (setDuty g d s).refusals = s.refusals := rfl
@[simp] theorem setDuty_stream (s : State) (g : Group) (d : Channels Duty) : (setDuty g d s).stream = s.stream := rfl
@[simp] theorem setDuty_moves (s : State) (g : Group) (d : Channels Duty) : (setDuty g d s).moves = s.moves := rfl
@[simp] theorem setDuty_draws (s : State) (g : Group) (d : Channels Duty) : (setDuty g d s).draws = s.draws := rfl

/-! ### setPins -/

@[simp] theorem setPins_duty (s : State) (f : Group → Channel → Level) : (setPins f s).block.duty = s.block.duty := rfl
@[simp] theorem setPins_pin (s : State) (f : Group → Channel → Level) : (setPins f s).block.pin = .ofFn fun g => .ofFn fun c => f g c := rfl
@[simp] theorem setPins_idx (s : State) (f : Group → Channel → Level) : (setPins f s).block.idx = s.block.idx := rfl
@[simp] theorem setPins_buf (s : State) (f : Group → Channel → Level) : (setPins f s).block.buf = s.block.buf := rfl
@[simp] theorem setPins_phase (s : State) (f : Group → Channel → Level) : (setPins f s).block.phase = s.block.phase := rfl
@[simp] theorem setPins_msg (s : State) (f : Group → Channel → Level) : (setPins f s).block.msg = s.block.msg := rfl
@[simp] theorem setPins_refused (s : State) (f : Group → Channel → Level) : (setPins f s).block.refused = s.block.refused := rfl
@[simp] theorem setPins_offered (s : State) (f : Group → Channel → Level) : (setPins f s).offered = s.offered := rfl
@[simp] theorem setPins_msgOut (s : State) (f : Group → Channel → Level) : (setPins f s).msgOut = s.msgOut := rfl
@[simp] theorem setPins_sent (s : State) (f : Group → Channel → Level) : (setPins f s).sent = s.sent := rfl
@[simp] theorem setPins_refusals (s : State) (f : Group → Channel → Level) : (setPins f s).refusals = s.refusals := rfl
@[simp] theorem setPins_stream (s : State) (f : Group → Channel → Level) : (setPins f s).stream = s.stream := rfl
@[simp] theorem setPins_moves (s : State) (f : Group → Channel → Level) : (setPins f s).moves = s.moves := rfl
@[simp] theorem setPins_draws (s : State) (f : Group → Channel → Level) : (setPins f s).draws = s.draws := rfl

/-! ### setIdx -/

@[simp] theorem setIdx_duty (s : State) (i : Fin 17) : (setIdx i s).block.duty = s.block.duty := rfl
@[simp] theorem setIdx_pin (s : State) (i : Fin 17) : (setIdx i s).block.pin = s.block.pin := rfl
@[simp] theorem setIdx_idx (s : State) (i : Fin 17) : (setIdx i s).block.idx = i := rfl
@[simp] theorem setIdx_buf (s : State) (i : Fin 17) : (setIdx i s).block.buf = s.block.buf := rfl
@[simp] theorem setIdx_phase (s : State) (i : Fin 17) : (setIdx i s).block.phase = s.block.phase := rfl
@[simp] theorem setIdx_msg (s : State) (i : Fin 17) : (setIdx i s).block.msg = s.block.msg := rfl
@[simp] theorem setIdx_refused (s : State) (i : Fin 17) : (setIdx i s).block.refused = s.block.refused := rfl
@[simp] theorem setIdx_offered (s : State) (i : Fin 17) : (setIdx i s).offered = s.offered := rfl
@[simp] theorem setIdx_msgOut (s : State) (i : Fin 17) : (setIdx i s).msgOut = s.msgOut := rfl
@[simp] theorem setIdx_sent (s : State) (i : Fin 17) : (setIdx i s).sent = s.sent := rfl
@[simp] theorem setIdx_refusals (s : State) (i : Fin 17) : (setIdx i s).refusals = s.refusals := rfl
@[simp] theorem setIdx_stream (s : State) (i : Fin 17) : (setIdx i s).stream = s.stream := rfl
@[simp] theorem setIdx_moves (s : State) (i : Fin 17) : (setIdx i s).moves = s.moves := rfl
@[simp] theorem setIdx_draws (s : State) (i : Fin 17) : (setIdx i s).draws = s.draws := rfl

/-! ### setPhase -/

@[simp] theorem setPhase_duty (s : State) (p : Phase) : (setPhase p s).block.duty = s.block.duty := rfl
@[simp] theorem setPhase_pin (s : State) (p : Phase) : (setPhase p s).block.pin = s.block.pin := rfl
@[simp] theorem setPhase_idx (s : State) (p : Phase) : (setPhase p s).block.idx = s.block.idx := rfl
@[simp] theorem setPhase_buf (s : State) (p : Phase) : (setPhase p s).block.buf = s.block.buf := rfl
@[simp] theorem setPhase_phase (s : State) (p : Phase) : (setPhase p s).block.phase = p := rfl
@[simp] theorem setPhase_msg (s : State) (p : Phase) : (setPhase p s).block.msg = s.block.msg := rfl
@[simp] theorem setPhase_refused (s : State) (p : Phase) : (setPhase p s).block.refused = s.block.refused := rfl
@[simp] theorem setPhase_offered (s : State) (p : Phase) : (setPhase p s).offered = s.offered := rfl
@[simp] theorem setPhase_msgOut (s : State) (p : Phase) : (setPhase p s).msgOut = s.msgOut := rfl
@[simp] theorem setPhase_sent (s : State) (p : Phase) : (setPhase p s).sent = s.sent := rfl
@[simp] theorem setPhase_refusals (s : State) (p : Phase) : (setPhase p s).refusals = s.refusals := rfl
@[simp] theorem setPhase_stream (s : State) (p : Phase) : (setPhase p s).stream = s.stream := rfl
@[simp] theorem setPhase_moves (s : State) (p : Phase) : (setPhase p s).moves = s.moves := rfl
@[simp] theorem setPhase_draws (s : State) (p : Phase) : (setPhase p s).draws = s.draws := rfl

/-! ### setMsg -/

@[simp] theorem setMsg_duty (s : State) (m : Message) : (setMsg m s).block.duty = s.block.duty := rfl
@[simp] theorem setMsg_pin (s : State) (m : Message) : (setMsg m s).block.pin = s.block.pin := rfl
@[simp] theorem setMsg_idx (s : State) (m : Message) : (setMsg m s).block.idx = s.block.idx := rfl
@[simp] theorem setMsg_buf (s : State) (m : Message) : (setMsg m s).block.buf = s.block.buf := rfl
@[simp] theorem setMsg_phase (s : State) (m : Message) : (setMsg m s).block.phase = s.block.phase := rfl
@[simp] theorem setMsg_msg (s : State) (m : Message) : (setMsg m s).block.msg = m := rfl
@[simp] theorem setMsg_refused (s : State) (m : Message) : (setMsg m s).block.refused = s.block.refused := rfl
@[simp] theorem setMsg_offered (s : State) (m : Message) : (setMsg m s).offered = s.offered := rfl
@[simp] theorem setMsg_msgOut (s : State) (m : Message) : (setMsg m s).msgOut = s.msgOut := rfl
@[simp] theorem setMsg_sent (s : State) (m : Message) : (setMsg m s).sent = s.sent := rfl
@[simp] theorem setMsg_refusals (s : State) (m : Message) : (setMsg m s).refusals = s.refusals := rfl
@[simp] theorem setMsg_stream (s : State) (m : Message) : (setMsg m s).stream = s.stream := rfl
@[simp] theorem setMsg_moves (s : State) (m : Message) : (setMsg m s).moves = s.moves := rfl
@[simp] theorem setMsg_draws (s : State) (m : Message) : (setMsg m s).draws = s.draws := rfl

/-! ### consume -/

@[simp] theorem consume_block (s : State) : (consume s).block = s.block := rfl
@[simp] theorem consume_offered (s : State) : (consume s).offered = none := rfl
@[simp] theorem consume_msgOut (s : State) : (consume s).msgOut = s.msgOut := rfl
@[simp] theorem consume_sent (s : State) : (consume s).sent = s.sent := rfl
@[simp] theorem consume_refusals (s : State) : (consume s).refusals = s.refusals := rfl
@[simp] theorem consume_stream (s : State) : (consume s).stream = s.stream := rfl
@[simp] theorem consume_moves (s : State) : (consume s).moves = s.moves := rfl
@[simp] theorem consume_draws (s : State) : (consume s).draws = s.draws := rfl

/-! ### markRefused -/

@[simp] theorem markRefused_duty (s : State) (r : WordRefusal) : (markRefused r s).block.duty = s.block.duty := rfl
@[simp] theorem markRefused_pin (s : State) (r : WordRefusal) : (markRefused r s).block.pin = s.block.pin := rfl
@[simp] theorem markRefused_idx (s : State) (r : WordRefusal) : (markRefused r s).block.idx = s.block.idx := rfl
@[simp] theorem markRefused_buf (s : State) (r : WordRefusal) : (markRefused r s).block.buf = s.block.buf := rfl
@[simp] theorem markRefused_phase (s : State) (r : WordRefusal) : (markRefused r s).block.phase = s.block.phase := rfl
@[simp] theorem markRefused_msg (s : State) (r : WordRefusal) : (markRefused r s).block.msg = s.block.msg := rfl
@[simp] theorem markRefused_refused (s : State) (r : WordRefusal) : (markRefused r s).block.refused = true := rfl
@[simp] theorem markRefused_offered (s : State) (r : WordRefusal) : (markRefused r s).offered = s.offered := rfl
@[simp] theorem markRefused_msgOut (s : State) (r : WordRefusal) : (markRefused r s).msgOut = s.msgOut := rfl
@[simp] theorem markRefused_sent (s : State) (r : WordRefusal) : (markRefused r s).sent = s.sent := rfl
@[simp] theorem markRefused_refusals (s : State) (r : WordRefusal) : (markRefused r s).refusals = s.refusals ++ [r] := rfl
@[simp] theorem markRefused_stream (s : State) (r : WordRefusal) : (markRefused r s).stream = s.stream := rfl
@[simp] theorem markRefused_moves (s : State) (r : WordRefusal) : (markRefused r s).moves = s.moves := rfl
@[simp] theorem markRefused_draws (s : State) (r : WordRefusal) : (markRefused r s).draws = s.draws := rfl

/-! ### beginStep -/

@[simp] theorem beginStep_block (s : State) (ms : List Move) : (beginStep ms s).block = s.block := rfl
@[simp] theorem beginStep_offered (s : State) (ms : List Move) : (beginStep ms s).offered = s.offered := rfl
@[simp] theorem beginStep_msgOut (s : State) (ms : List Move) : (beginStep ms s).msgOut = none := rfl
@[simp] theorem beginStep_sent (s : State) (ms : List Move) : (beginStep ms s).sent = s.sent := rfl
@[simp] theorem beginStep_refusals (s : State) (ms : List Move) : (beginStep ms s).refusals = s.refusals := rfl
@[simp] theorem beginStep_stream (s : State) (ms : List Move) : (beginStep ms s).stream = s.stream := rfl
@[simp] theorem beginStep_moves (s : State) (ms : List Move) : (beginStep ms s).moves = ms := rfl
@[simp] theorem beginStep_draws (s : State) (ms : List Move) : (beginStep ms s).draws = s.draws := rfl

end Machine

end Sys2Proof
end

