-- ==== Sys2Proof/Laws/Memory.lean ====
section
/-!
SUPPORT. The frame buffer's laws: a read after a write, and that every operation keeps the canonical form.
-/

namespace Sys2Proof.Machine

@[simp] theorem Memory.read_nil (i : Nat) : Memory.read [] i = none := rfl

theorem Memory.read_cons (a : Nat) (v : Byte) (m : Memory) (i : Nat) :
    Memory.read ((a, v) :: m) i = if a = i then some v else m.read i := rfl

/-- Below its first index a canonical buffer lists nothing. -/
theorem Memory.read_none_of_risingFrom {m : Memory} {lo i : Nat} (h : m.risingFrom lo = true) (hi : i < lo) :
    m.read i = none := by
  induction m generalizing lo with
  | nil => rfl
  | cons x m ih =>
    obtain ⟨a, v⟩ := x
    simp only [Memory.risingFrom, Bool.and_eq_true, decide_eq_true_eq] at h
    rw [Memory.read_cons, if_neg (by omega), ih h.2 (by omega)]

/-- A read after a write to any buffer: the byte written at its index, the byte before elsewhere. -/
theorem Memory.read_write (m : Memory) (i j : Nat) (v : Byte) :
    (m.write i v).read j = if j = i then some v else m.read j := by
  induction m with
  | nil =>
    simp only [Memory.write, Memory.read_cons, Memory.read_nil]
    split <;> split <;> first | rfl | omega
  | cons x m ih =>
    obtain ⟨a, u⟩ := x
    simp only [Memory.write]
    split
    · simp only [Memory.read_cons]
      by_cases hj : j = i
      · simp [hj]
      · rw [if_neg (fun h => hj h.symm), if_neg hj]
    · split
      · subst_vars
        simp only [Memory.read_cons]
        by_cases hj : j = a
        · simp [hj]
        · rw [if_neg (fun h => hj h.symm), if_neg hj, if_neg (fun h => hj h.symm)]
      · simp only [Memory.read_cons, ih]
        by_cases hj : a = j
        · rw [if_pos hj, if_pos hj, if_neg (by omega)]
        · rw [if_neg hj, if_neg hj]

theorem Memory.risingFrom_mono {m : Memory} {lo lo' : Nat} (h : m.risingFrom lo = true) (hl : lo' ≤ lo) :
    m.risingFrom lo' = true := by
  cases m with
  | nil => rfl
  | cons x m =>
    obtain ⟨a, v⟩ := x
    simp only [Memory.risingFrom, Bool.and_eq_true, decide_eq_true_eq] at h ⊢
    exact ⟨⟨by omega, h.1.2⟩, h.2⟩

theorem Memory.risingFrom_write {m : Memory} {lo i : Nat} {v : Byte} (h : m.risingFrom lo = true) (hlo : lo ≤ i)
    (hi : i < Config.frameLen) : (m.write i v).risingFrom lo = true := by
  induction m generalizing lo with
  | nil => simp [Memory.write, Memory.risingFrom, hlo, hi]
  | cons x m ih =>
    obtain ⟨a, u⟩ := x
    simp only [Memory.risingFrom, Bool.and_eq_true, decide_eq_true_eq] at h
    simp only [Memory.write]
    split
    · simp only [Memory.risingFrom, Bool.and_eq_true, decide_eq_true_eq]
      exact ⟨⟨hlo, hi⟩, ⟨by omega, h.1.2⟩, h.2⟩
    · split
      · simp only [Memory.risingFrom, Bool.and_eq_true, decide_eq_true_eq]
        subst_vars
        exact ⟨⟨hlo, hi⟩, h.2⟩
      · simp only [Memory.risingFrom, Bool.and_eq_true, decide_eq_true_eq]
        exact ⟨h.1, ih h.2 (by omega)⟩

/-- A write keeps the canonical form. -/
theorem Memory.wf_write {m : Memory} (h : m.wf = true) (i : Fin 17) (v : Byte) : (m.write i v).wf = true :=
  Memory.risingFrom_write h (Nat.zero_le _) i.isLt

/-- The empty buffer, which reset and RESET leave, is canonical. -/
theorem Memory.wf_nil : Memory.wf [] = true := rfl

/-- `MemWrite` keeps the canonical form. -/
theorem memWrite_wf {s : State} (h : s.block.buf.wf = true) (i : Fin 17) (v : Byte) :
    (memWrite i v s).block.buf.wf = true :=
  Memory.wf_write h i v

/-- `MemRead` after `MemWrite`. -/
@[simp] theorem memRead_memWrite (s : State) (i j : Fin 17) (v : Byte) :
    memRead (memWrite i v s) j = if j = i then v else memRead s j := by
  simp only [memRead, memWrite, Memory.read_write, Fin.val_inj]
  split <;> rfl

/-- What `MemRead` depends on: the buffer and the count of RESETs. -/
theorem memRead_congr {s t : State} (hb : s.block.buf = t.block.buf) (hd : s.draws = t.draws) (i : Fin 17) :
    memRead s i = memRead t i := by
  rw [memRead, memRead, hb, hd]

/-- A listed entry reads as its byte, whatever the free values are. -/
theorem memRead_of_listed {s : State} {i : Fin 17} {b : Byte} (h : s.block.buf.read i = some b) :
    memRead s i = b := by
  rw [memRead, h, Option.getD_some]

end Sys2Proof.Machine
end

