-- ==== Sys2Proof/Laws/Ops.lean ====
section
/-!
SUPPORT. What each shared operation can do, said once: accepting and holding, the operation port and the block's answer,
the two events, the four cases of FEED, and the per-channel tick.
-/

namespace Sys2Proof.Machine

/-! ### accept -/

theorem accept_ready {f : State → State} {s : State} (h : s.block.phase = .ready) :
    accept f s = .next (consume (f s)) := by
  simp only [accept, h]

theorem accept_ackWait {f : State → State} {s : State} (h : s.block.phase = .ackWait) :
    accept f s = .next s := by
  simp only [accept, h]

/-- All that `accept` can do: the operation is accepted in Ready, or held in AckWait. -/
theorem accept_cases {f : State → State} {s t : State} (h : accept f s = .next t) :
    (s.block.phase = .ready ∧ t = consume (f s)) ∨ (s.block.phase = .ackWait ∧ t = s) := by
  cases hp : s.block.phase with
  | ready =>
    rw [accept_ready hp] at h
    exact .inl ⟨rfl, (Host.Outcome.next.inj h).symm⟩
  | ackWait =>
    rw [accept_ackWait hp] at h
    exact .inr ⟨rfl, (Host.Outcome.next.inj h).symm⟩

theorem accept_answers_next (f : State → State) (s : State) : ∃ t, accept f s = .next t := by
  cases hp : s.block.phase with
  | ready => exact ⟨_, accept_ready hp⟩
  | ackWait => exact ⟨_, accept_ackWait hp⟩

/-! ### The operation port -/

theorem present_of_offered {s : State} {w : CmdWord} (h : s.offered = some w) : present s = s := by
  simp only [present, h]

theorem present_of_stream {s : State} {w : CmdWord} {ws : List CmdWord} (h : s.offered = none)
    (hs : s.stream = w :: ws) : present s = { s with offered := some w, stream := ws } := by
  simp only [present, h, hs]

theorem present_of_silence {s : State} (h : s.offered = none) (hs : s.stream = []) : present s = s := by
  simp only [present, h, hs]

/-- All that `present` can do: nothing, or the next word of the stream goes onto an empty port. -/
theorem present_cases (s : State) :
    present s = s ∨ ∃ w ws, s.offered = none ∧ s.stream = w :: ws ∧
      present s = { s with offered := some w, stream := ws } := by
  cases ho : s.offered with
  | some w => exact .inl (present_of_offered ho)
  | none =>
    cases hs : s.stream with
    | nil => exact .inl (present_of_silence ho hs)
    | cons w ws => exact .inr ⟨w, ws, rfl, rfl, present_of_stream ho hs⟩

@[simp] theorem present_block (s : State) : (present s).block = s.block := by
  obtain h | ⟨w, ws, -, -, h⟩ := present_cases s <;> rw [h]

@[simp] theorem present_msgOut (s : State) : (present s).msgOut = s.msgOut := by
  obtain h | ⟨w, ws, -, -, h⟩ := present_cases s <;> rw [h]

@[simp] theorem present_sent (s : State) : (present s).sent = s.sent := by
  obtain h | ⟨w, ws, -, -, h⟩ := present_cases s <;> rw [h]

@[simp] theorem present_refusals (s : State) : (present s).refusals = s.refusals := by
  obtain h | ⟨w, ws, -, -, h⟩ := present_cases s <;> rw [h]

@[simp] theorem present_moves (s : State) : (present s).moves = s.moves := by
  obtain h | ⟨w, ws, -, -, h⟩ := present_cases s <;> rw [h]

@[simp] theorem present_draws (s : State) : (present s).draws = s.draws := by
  obtain h | ⟨w, ws, -, -, h⟩ := present_cases s <;> rw [h]

theorem answer_nothing {s : State} (h : s.offered = none) : answer s = .nothing := by
  simp only [answer, h]

theorem answer_held {s : State} {w : CmdWord} (h : s.offered = some w) (hp : s.block.phase = .ackWait) :
    answer s = .held := by
  simp only [answer, h, hp]

theorem answer_accepted {s : State} {w : CmdWord} {i : Instr} (h : s.offered = some w)
    (hp : s.block.phase = .ready) (hd : decode w = .ok i) : answer s = .accepted i := by
  simp only [answer, h, hp, hd]

theorem answer_refused {s : State} {w : CmdWord} {r : WordRefusal} (h : s.offered = some w)
    (hp : s.block.phase = .ready) (hd : decode w = .error r) : answer s = .refused r := by
  simp only [answer, h, hp, hd]

/-- All four answers of the block, and when each is given (60_exceptions.md R106). -/
theorem answer_cases (s : State) :
    (s.offered = none ∧ answer s = .nothing) ∨
    (s.block.phase = .ackWait ∧ answer s = .held) ∨
    (∃ w r, s.offered = some w ∧ s.block.phase = .ready ∧ decode w = .error r ∧ answer s = .refused r) ∨
    (∃ w i, s.offered = some w ∧ s.block.phase = .ready ∧ decode w = .ok i ∧ answer s = .accepted i) := by
  cases ho : s.offered with
  | none => exact .inl ⟨rfl, answer_nothing ho⟩
  | some w =>
    cases hp : s.block.phase with
    | ackWait => exact .inr (.inl ⟨rfl, answer_held ho hp⟩)
    | ready =>
      cases hd : decode w with
      | error r => exact .inr (.inr (.inl ⟨w, r, rfl, rfl, hd, answer_refused ho hp hd⟩))
      | ok i => exact .inr (.inr (.inr ⟨w, i, rfl, rfl, hd, answer_accepted ho hp hd⟩))

theorem answer_accepted_phase {s : State} {i : Instr} (h : answer s = .accepted i) : s.block.phase = .ready := by
  obtain ⟨-, h'⟩ | ⟨-, h'⟩ | ⟨w, r, -, -, -, h'⟩ | ⟨w, i, -, hp, -, -⟩ := answer_cases s
  · rw [h'] at h; cases h
  · rw [h'] at h; cases h
  · rw [h'] at h; cases h
  · exact hp

/-! ### Refusing -/

@[simp] theorem refuseWord_block (r : WordRefusal) (s : State) :
    (refuseWord r s).block = { s.block with refused := true } := rfl
@[simp] theorem refuseWord_offered (r : WordRefusal) (s : State) : (refuseWord r s).offered = none := rfl
@[simp] theorem refuseWord_msgOut (r : WordRefusal) (s : State) : (refuseWord r s).msgOut = s.msgOut := rfl
@[simp] theorem refuseWord_sent (r : WordRefusal) (s : State) : (refuseWord r s).sent = s.sent := rfl
@[simp] theorem refuseWord_refusals (r : WordRefusal) (s : State) :
    (refuseWord r s).refusals = s.refusals ++ [r] := rfl
@[simp] theorem refuseWord_stream (r : WordRefusal) (s : State) : (refuseWord r s).stream = s.stream := rfl
@[simp] theorem refuseWord_moves (r : WordRefusal) (s : State) : (refuseWord r s).moves = s.moves := rfl
@[simp] theorem refuseWord_draws (r : WordRefusal) (s : State) : (refuseWord r s).draws = s.draws := rfl

/-! ### TX_ACCEPT and RESET -/

theorem txAccept_ready {s : State} (h : s.block.phase = .ready) : txAccept s = s := by
  simp only [txAccept, h]

theorem txAccept_ackWait {s : State} (h : s.block.phase = .ackWait) :
    txAccept s =
      { setPhase .ready s with msgOut := some s.block.msg, sent := s.sent ++ [Config.ack] } := by
  simp only [txAccept, h]

@[simp] theorem resetEvent_block (a : Bool) (s : State) :
    (resetEvent a s).block = resetBlock (s.draws + 1) s.block.refused := rfl
@[simp] theorem resetEvent_draws (a : Bool) (s : State) : (resetEvent a s).draws = s.draws + 1 := rfl
@[simp] theorem resetEvent_msgOut (a : Bool) (s : State) : (resetEvent a s).msgOut = none := rfl
@[simp] theorem resetEvent_refusals (a : Bool) (s : State) : (resetEvent a s).refusals = s.refusals := rfl
@[simp] theorem resetEvent_stream (a : Bool) (s : State) : (resetEvent a s).stream = s.stream := rfl
@[simp] theorem resetEvent_moves (a : Bool) (s : State) : (resetEvent a s).moves = s.moves := rfl

@[simp] theorem resetBlock_phase (n : Nat) (b : Bool) : (resetBlock n b).phase = .ready := rfl
@[simp] theorem resetBlock_idx (n : Nat) (b : Bool) : (resetBlock n b).idx = 0 := rfl
@[simp] theorem resetBlock_buf (n : Nat) (b : Bool) : (resetBlock n b).buf = [] := rfl
@[simp] theorem resetBlock_refused (n : Nat) (b : Bool) : (resetBlock n b).refused = b := rfl

theorem resetEvent_sent_ready {a : Bool} {s : State} (h : s.block.phase = .ready) :
    (resetEvent a s).sent = s.sent := by
  simp [resetEvent, h]

/-- The state after reset is what a RESET leaves (log 19). -/
theorem reset_block : State.reset.block = resetBlock 0 false := rfl

/-! ### The scheduler -/

theorem tick1_start (d : Duty) (l : Level) : tick1 d l 0 = if d = .absent then .low else .high := rfl

theorem tick1_end {d : Duty} {l : Level} {p : PosField} (h : p ≠ 0) (hm : dutyMatches p d = true) :
    tick1 d l p = .low := by
  rw [tick1, if_neg h, if_pos hm]

theorem tick1_keep {d : Duty} {l : Level} {p : PosField} (h : p ≠ 0) (hm : dutyMatches p d = false) :
    tick1 d l p = l := by
  rw [tick1, if_neg h, if_neg (by rw [hm]; decide)]

theorem dutyMatches_iff (p : PosField) (d : Duty) :
    dutyMatches p d = true ↔ ∃ v, d = .present v ∧ v.val.toNat = p.toNat := by
  cases d with
  | absent => simp [dutyMatches]
  | present v => simp [dutyMatches]

@[simp] theorem pinAt_tickAll (p : PosField) (s : State) (g : Group) (c : Channel) :
    pinAt (tickAll p s) g c = tick1 (dutyAt s g c) (pinAt s g c) p := by
  simp [tickAll]

/-- TICK leaves everything but the pins. -/
theorem tickAll_eq (p : PosField) (s : State) :
    tickAll p s = { s with block := { s.block with pin := (tickAll p s).block.pin } } := rfl

theorem enc_zero : enc 0 = .absent := rfl

theorem enc_of_ne_zero {b : Byte} (h : b ≠ 0) : enc b = .present ⟨b, h⟩ := by
  rw [enc, dif_neg h]

/-! ### The four cases of FEED (41_frame_decoder.md R85) -/

theorem feedByte_discard {d : Byte} {s : State} (hi : s.block.idx = 0) (hd : d ≠ Config.sentinel) :
    feedByte d s = s := by
  rw [feedByte, if_pos hi, if_neg hd]

theorem feedByte_take {s : State} (hi : s.block.idx = 0) :
    feedByte Config.sentinel s = seekTake Config.sentinel s := by
  rw [feedByte, if_pos hi, if_pos rfl]

theorem feedByte_accumulate {d : Byte} {s : State} (hi : s.block.idx ≠ 0) (h : s.block.idx.val < 16) :
    feedByte d s = accumulate d ⟨s.block.idx.val, h⟩ s := by
  rw [feedByte, if_neg hi, dif_pos h]

theorem feedByte_complete {d : Byte} {s : State} (hi : s.block.idx = 16) : feedByte d s = complete d s := by
  rw [feedByte, if_neg (by rw [hi]; decide), dif_neg (by rw [hi]; decide)]

/-- All that FEED can do. -/
theorem feedByte_cases (d : Byte) (s : State) :
    (s.block.idx = 0 ∧ d ≠ Config.sentinel ∧ feedByte d s = s) ∨
    (s.block.idx = 0 ∧ d = Config.sentinel ∧ feedByte d s = seekTake d s) ∨
    (s.block.idx ≠ 0 ∧ ∃ h : s.block.idx.val < 16, feedByte d s = accumulate d ⟨s.block.idx.val, h⟩ s) ∨
    (s.block.idx = 16 ∧ feedByte d s = complete d s) := by
  by_cases hi : s.block.idx = 0
  · by_cases hd : d = Config.sentinel
    · subst hd
      exact .inr (.inl ⟨hi, rfl, feedByte_take hi⟩)
    · exact .inl ⟨hi, hd, feedByte_discard hi hd⟩
  · by_cases h : s.block.idx.val < 16
    · exact .inr (.inr (.inl ⟨hi, h, feedByte_accumulate hi h⟩))
    · have h16 : s.block.idx = 16 := by
        apply Fin.ext
        have := s.block.idx.isLt
        show s.block.idx.val = 16
        omega
      exact .inr (.inr (.inr ⟨h16, feedByte_complete h16⟩))

/-- FEED changes nothing but the index, the buffer, the phase and the message register. -/
theorem feedByte_frame (d : Byte) (s : State) :
    feedByte d s = { s with block := { s.block with
      idx := (feedByte d s).block.idx, buf := (feedByte d s).block.buf,
      phase := (feedByte d s).block.phase, msg := (feedByte d s).block.msg } } := by
  obtain ⟨-, -, h⟩ | ⟨-, -, h⟩ | ⟨-, hl, h⟩ | ⟨-, h⟩ := feedByte_cases d s <;> rw [h] <;> rfl

/-- The Message a buffer decodes to, channel by channel. -/
@[simp] theorem decodeFrame_get (s : State) (g : Group) (c : Channel) :
    ((decodeFrame s).get g).get c = memRead s (payloadEntry g c) := by
  simp [decodeFrame]

theorem decodeFrame_congr {s t : State} (hb : s.block.buf = t.block.buf) (hd : s.draws = t.draws) :
    decodeFrame s = decodeFrame t := by
  refine Groups.ext_get fun g => Channels.ext_get fun c => ?_
  rw [decodeFrame_get, decodeFrame_get, memRead_congr hb hd]

end Sys2Proof.Machine
end

