-- ==== Sys2Proof/Laws/Step.lean ====
section
/-!
SUPPORT. What a step can do, said once: the equations of `step` by the next move, and the inversion of a step that
answers a next state.
-/

namespace Sys2Proof.Machine

/-! ### Each instruction as one accepted or held effect -/

/-- What a TICK does where it is accepted. -/
theorem exec_tick (p : PosField) (s : State) :
    exec (.tick p) s =
      accept (fun s =>
        if p.Legal then tickAll p s
        else markRefused (.positionOutOfRange (encode (.tick p))) s) s := rfl

theorem exec_setColor (g : Group) (color : Color) (s : State) :
    exec (.setColor g color) s = accept (setDuty g (encColor color)) s := rfl

theorem exec_feed (d : Byte) (s : State) : exec (.feed d) s = accept (feedByte d) s := rfl

theorem exec_feedErr (d : Byte) (s : State) : exec (.feedErr d) s = accept (fun s => s) s := rfl

/-- Every instruction is one effect under `accept`, the same at every state. -/
theorem exec_is_accept (i : Instr) : ∃ f : State → State, ∀ s, exec i s = accept f s := by
  cases i with
  | tick p => exact ⟨_, exec_tick p⟩
  | feed d => exact ⟨_, exec_feed d⟩
  | feedErr d => exact ⟨_, exec_feedErr d⟩
  | setColor g color => exact ⟨_, exec_setColor g color⟩

/-- All that an instruction leaves alone: it consumes the port or holds, and touches no other port, input or history. -/
theorem exec_frame {i : Instr} {s t : State} (h : exec i s = .next t) :
    t.msgOut = s.msgOut ∧ t.sent = s.sent ∧ t.stream = s.stream ∧ t.moves = s.moves ∧ t.draws = s.draws := by
  cases i with
  | tick p =>
    rw [exec_tick] at h
    obtain ⟨-, rfl⟩ | ⟨-, rfl⟩ := accept_cases h
    · split <;> exact ⟨rfl, rfl, rfl, rfl, rfl⟩
    · exact ⟨rfl, rfl, rfl, rfl, rfl⟩
  | feed d =>
    rw [exec_feed] at h
    obtain ⟨-, rfl⟩ | ⟨-, rfl⟩ := accept_cases h
    · rw [feedByte_frame]
      exact ⟨rfl, rfl, rfl, rfl, rfl⟩
    · exact ⟨rfl, rfl, rfl, rfl, rfl⟩
  | feedErr d =>
    rw [exec_feedErr] at h
    obtain ⟨-, rfl⟩ | ⟨-, rfl⟩ := accept_cases h <;> exact ⟨rfl, rfl, rfl, rfl, rfl⟩
  | setColor g color =>
    rw [exec_setColor] at h
    obtain ⟨-, rfl⟩ | ⟨-, rfl⟩ := accept_cases h <;> exact ⟨rfl, rfl, rfl, rfl, rfl⟩

/-! ### Steps -/

theorem step_idle {s : State} (h : s.moves = []) : step s = .next (beginStep [] s) := by
  simp only [step, h]

theorem step_host {s : State} {ms : List Move} (h : s.moves = .host :: ms) :
    step s = hostTurn (present (beginStep ms s)) := by
  simp only [step, h]

theorem step_txAccept {s : State} {ms : List Move} (h : s.moves = .txAccept :: ms) :
    step s = .next (txAccept (beginStep ms s)) := by
  simp only [step, h]

theorem step_reset {s : State} {ms : List Move} {a : Bool} (h : s.moves = .reset a :: ms) :
    step s = .next (resetEvent a (beginStep ms s)) := by
  simp only [step, h]

/-- All that the host's turn can do. -/
theorem hostTurn_cases {s t : State} (h : hostTurn s = .next t) :
    (s.offered = none ∧ t = s) ∨
    (s.block.phase = .ackWait ∧ t = s) ∨
    (∃ w r, s.offered = some w ∧ s.block.phase = .ready ∧ decode w = .error r ∧ t = refuseWord r s) ∨
    (∃ w i, s.offered = some w ∧ s.block.phase = .ready ∧ decode w = .ok i ∧ exec i s = .next t) := by
  obtain ⟨ho, ha⟩ | ⟨hp, ha⟩ | ⟨w, r, ho, hp, hd, ha⟩ | ⟨w, i, ho, hp, hd, ha⟩ := answer_cases s <;>
    simp only [hostTurn, ha] at h
  · exact .inl ⟨ho, (Host.Outcome.next.inj h).symm⟩
  · exact .inr (.inl ⟨hp, (Host.Outcome.next.inj h).symm⟩)
  · exact .inr (.inr (.inl ⟨w, r, ho, hp, hd, (Host.Outcome.next.inj h).symm⟩))
  · exact .inr (.inr (.inr ⟨w, i, ho, hp, hd, h⟩))

/-- All that a step can do. -/
theorem step_cases {s t : State} (h : step s = .next t) :
    (s.moves = [] ∧ t = beginStep [] s) ∨
    (∃ ms, s.moves = .host :: ms ∧ hostTurn (present (beginStep ms s)) = .next t) ∨
    (∃ ms, s.moves = .txAccept :: ms ∧ t = txAccept (beginStep ms s)) ∨
    (∃ a ms, s.moves = .reset a :: ms ∧ t = resetEvent a (beginStep ms s)) := by
  cases hm : s.moves with
  | nil =>
    rw [step_idle hm] at h
    exact .inl ⟨rfl, (Host.Outcome.next.inj h).symm⟩
  | cons m ms =>
    cases m with
    | host =>
      rw [step_host hm] at h
      exact .inr (.inl ⟨ms, rfl, h⟩)
    | txAccept =>
      rw [step_txAccept hm] at h
      exact .inr (.inr (.inl ⟨ms, rfl, (Host.Outcome.next.inj h).symm⟩))
    | reset a =>
      rw [step_reset hm] at h
      exact .inr (.inr (.inr ⟨a, ms, rfl, (Host.Outcome.next.inj h).symm⟩))

/-- What the next step accepts, when it is the host's turn. -/
theorem acceptedOp_host {s : State} {ms : List Move} {i : Instr} (h : s.moves = .host :: ms)
    (ha : answer (present (beginStep ms s)) = .accepted i) : acceptedOp s = some i := by
  simp only [acceptedOp, h, ha]

end Sys2Proof.Machine
end

