-- ==== Sys2Proof/Laws/Events.lean ====
section
/-!
SUPPORT. What one event and a run of events can do, said once.
-/

namespace Sys2Proof.Machine

/-- An operation event is accepted in Ready and is `exec`, the message port cleared. -/
theorem applyEvent_op {i : Instr} {s t : State} (h : applyEvent (.op i) s = some t) :
    s.block.phase = .ready ∧ exec i { s with msgOut := none } = .next t := by
  unfold applyEvent at h
  split at h
  · rename_i he
    refine ⟨by cases hp : s.block.phase <;> simp_all [Event.enabled], ?_⟩
    simp only [eventEffect] at h
    split at h <;> simp_all
  · cases h

theorem applyEvent_op_of_ready {i : Instr} {s t : State} (hp : s.block.phase = .ready)
    (h : exec i { s with msgOut := none } = .next t) : applyEvent (.op i) s = some t := by
  simp [applyEvent, eventEffect, Event.enabled, hp, h]

/-- A TX_ACCEPT event is enabled in AckWait only. -/
theorem applyEvent_txAccept {s t : State} (h : applyEvent .txAccept s = some t) :
    s.block.phase = .ackWait ∧ t = txAccept { s with msgOut := none } := by
  unfold applyEvent at h
  split at h
  · rename_i he
    refine ⟨by cases hp : s.block.phase <;> simp_all [Event.enabled], ?_⟩
    simp only [eventEffect] at h
    exact (Option.some.inj h).symm
  · cases h

/-- A RESET event is enabled in either phase. -/
theorem applyEvent_reset (a : Bool) (s : State) :
    applyEvent (.reset a) s = some (resetEvent a { s with msgOut := none }) := by
  simp [applyEvent, eventEffect, Event.enabled]

theorem runEvents_cons {e : Event} {es : List Event} {s t : State} (h : runEvents (e :: es) s = some t) :
    ∃ u, applyEvent e s = some u ∧ runEvents es u = some t := by
  simp only [runEvents] at h
  split at h
  · exact ⟨_, by assumption, h⟩
  · cases h

theorem runEvents_append (es es' : List Event) (s : State) :
    runEvents (es ++ es') s = (runEvents es s).bind (runEvents es') := by
  induction es generalizing s with
  | nil => rfl
  | cons e es ih =>
    simp only [List.cons_append, runEvents]
    cases applyEvent e s <;> simp [ih]

end Sys2Proof.Machine
end

