-- ==== Sys2Proof/Laws/PerInstr.lean ====
section
/-!
SUPPORT. Facts about every instruction as syntax, one lemma per constructor: the word of an instruction matches its row
of spec/opcode_table.json, whatever its operands.
-/

namespace Sys2Proof.Laws

/-- The `mask` of an instruction's row in spec/opcode_table.json. -/
def rowMask : Instr → CmdWord
  | .tick _ => 0xFFFFFFFF80
  | .feed _ => 0xFFFFFFFF00
  | .feedErr _ => 0xFFFFFFFF00
  | .setColor _ _ => 0xFC00000000

/-- The `match` value of an instruction's row in spec/opcode_table.json. -/
def rowMatch : Instr → CmdWord
  | .tick _ => 0x1000000000
  | .feed _ => 0x2000000000
  | .feedErr _ => 0x3000000000
  | .setColor _ _ => 0x4000000000

/-- The word of an instruction has its row's fixed bits. -/
def EncodesRow.Statement (i : Instr) : Prop := encode i &&& rowMask i = rowMatch i

theorem EncodesRow.tick (p : PosField) : EncodesRow.Statement (.tick p) := by
  unfold EncodesRow.Statement
  revert p
  decide

theorem EncodesRow.feed (d : Byte) : EncodesRow.Statement (.feed d) := by
  unfold EncodesRow.Statement
  revert d
  decide

theorem EncodesRow.feedErr (d : Byte) : EncodesRow.Statement (.feedErr d) := by
  unfold EncodesRow.Statement
  revert d
  decide

theorem EncodesRow.setColor (g : Group) (color : Color) : EncodesRow.Statement (.setColor g color) := by
  unfold EncodesRow.Statement
  ext i hi
  interval_cases i <;> simp [encode, rowMask, rowMatch, fieldAt]

end Sys2Proof.Laws
end

