-- ==== Sys2Proof/Machine/Assembler.lean ====
section
/-!
DEFINITION. The operation syntax of 30_encoding.md R65 and the pseudo-instructions of R66: one line of text to the
events it stands for. Notation only (92_eei_decisions.md D24); what it leaves open of the text is log 18.
-/

namespace Sys2Proof.Machine

/-- A token of a line. -/
inductive Token where
  | name (cs : List Char)
  | num (n : Nat)
  | comma
  | lpar
  | rpar
deriving DecidableEq, Repr

/-- The value of a digit in base `base`. -/
def digitValue (base : Nat) (c : Char) : Option Nat :=
  let v :=
    if '0' ≤ c ∧ c ≤ '9' then c.toNat - '0'.toNat
    else if 'a' ≤ c ∧ c ≤ 'f' then c.toNat - 'a'.toNat + 10
    else if 'A' ≤ c ∧ c ≤ 'F' then c.toNat - 'A'.toNat + 10
    else base
  if v < base then some v else none

/-- The number a list of digits spells, `acc` read so far. -/
def digitsFrom (base : Nat) : Nat → List Char → Option Nat
  | acc, [] => some acc
  | acc, c :: cs =>
    match digitValue base c with
    | some v => digitsFrom base (acc * base + v) cs
    | none => none

/-- A number: decimal, or hexadecimal after `0x` (R65). -/
def numberOf : List Char → Option Nat
  | [] => none
  | ['0', 'x'] => none
  | '0' :: 'x' :: cs => digitsFrom 16 0 cs
  | cs => digitsFrom 10 0 cs

/-- The token a run of letters or digits spells: a number, or a name of capitals and underscores. -/
def tokenOf (cs : List Char) : Option Token :=
  match numberOf cs with
  | some n => some (.num n)
  | none => if cs.all fun c => c.isUpper || c == '_' then some (.name cs) else none

/-- `acc`, the letters read so far in reverse, closed as a token before `rest`. -/
def closeToken (acc : List Char) (rest : Option (List Token)) : Option (List Token) :=
  match acc with
  | [] => rest
  | c :: cs =>
    match tokenOf (c :: cs).reverse, rest with
    | some t, some ts => some (t :: ts)
    | _, _ => none

/-- The tokens of a line; a `;` starts a comment (R65). -/
def tokensFrom : List Char → List Char → Option (List Token)
  | acc, [] => closeToken acc (some [])
  | acc, c :: cs =>
    if c = ';' then closeToken acc (some [])
    else if c = ' ' then closeToken acc (tokensFrom [] cs)
    else if c = ',' then closeToken acc ((tokensFrom [] cs).map (Token.comma :: ·))
    else if c = '(' then closeToken acc ((tokensFrom [] cs).map (Token.lpar :: ·))
    else if c = ')' then closeToken acc ((tokensFrom [] cs).map (Token.rpar :: ·))
    else tokensFrom (c :: acc) cs

/-- Numbers separated by commas. -/
def numbers : List Token → Option (List Nat)
  | [] => some []
  | [.num n] => some [n]
  | .num n :: .comma :: ts => (numbers ts).map (n :: ·)
  | _ => none

/-- A number as a byte, where it is one. -/
def byteOf (n : Nat) : Option Byte := if n < 256 then some (BitVec.ofNat 8 n) else none

/-- Four numbers as a Color. -/
def colorOf (r g b w : Nat) : Option Color :=
  match byteOf r, byteOf g, byteOf b, byteOf w with
  | some r, some g, some b, some w => some ⟨r, g, b, w⟩
  | _, _, _, _ => none

/-- Sixteen numbers in wire order as a Message. -/
def messageOf : List Nat → Option Message
  | [a1, a2, a3, a4, b1, b2, b3, b4, c1, c2, c3, c4, d1, d2, d3, d4] =>
    match colorOf a1 a2 a3 a4, colorOf b1 b2 b3 b4, colorOf c1 c2 c3 c4, colorOf d1 d2 d3 d4 with
    | some a, some b, some c, some d => some ⟨a, b, c, d⟩
    | _, _, _, _ => none
  | _ => none

/-- The group a wire group number 1 to 4 names: `q = grp - 1` (R65). -/
def groupOfNumber : Nat → Option Group
  | 1 => some .group1
  | 2 => some .group2
  | 3 => some .group3
  | 4 => some .group4
  | _ => none

/-- `(r, g, b, w)` as tokens. -/
def colorTokens : List Token → Option (List Nat × List Token)
  | .lpar :: .num r :: .comma :: .num g :: .comma :: .num b :: .comma :: .num w :: .rpar :: ts =>
    some ([r, g, b, w], ts)
  | _ => none

/-- A Message as tokens: four Colors in parentheses. -/
def messageTokens (ts : List Token) : Option Message :=
  match ts with
  | .lpar :: ts =>
    match colorTokens ts with
    | some (a, .comma :: ts) =>
      match colorTokens ts with
      | some (b, .comma :: ts) =>
        match colorTokens ts with
        | some (c, .comma :: ts) =>
          match colorTokens ts with
          | some (d, [.rpar]) => messageOf (a ++ b ++ c ++ d)
          | _ => none
        | _ => none
      | _ => none
    | _ => none
  | _ => none

/-- An operation or pseudo-instruction by name and numbers (R65, R66). -/
def assemble (ackSent : Bool) (name : List Char) (args : List Nat) : Option (List Event) :=
  if name = ['T', 'I', 'C', 'K'] then
    match args with
    | [p] => if p < Config.cycle then some [tickOf p] else none
    | _ => none
  else if name = ['F', 'E', 'E', 'D'] then
    match args with
    | [d] => (byteOf d).map fun b => [.op (.feed b)]
    | _ => none
  else if name = ['F', 'E', 'E', 'D', '_', 'E', 'R', 'R'] then
    match args with
    | [d] => (byteOf d).map fun b => [.op (.feedErr b)]
    | _ => none
  else if name = ['S', 'E', 'T', '_', 'C', 'O', 'L', 'O', 'R'] then
    match args with
    | [grp, r, g, b, w] =>
      match groupOfNumber grp, colorOf r g b w with
      | some k, some color => some [.op (.setColor k color)]
      | _, _ => none
    | _ => none
  else if name = ['R', 'E', 'S', 'E', 'T'] then
    if args = [] then some [.reset ackSent] else none
  else if name = ['T', 'X', '_', 'A', 'C', 'C', 'E', 'P', 'T'] then
    if args = [] then some [.txAccept] else none
  else if name = ['F', 'R', 'A', 'M', 'E'] then
    (messageOf args).map frame
  else if name = ['R', 'U', 'N'] then
    match args with
    | [p0, n] => some (runTicks p0 n)
    | _ => none
  else if name = ['C', 'Y', 'C', 'L', 'E'] then
    if args = [] then some fullCycle else none
  else none

/-- One line of a listing: the events it stands for, none where it is no line of the syntax. `ackSent` is the draw of a
RESET, which the text does not give (70_reset_and_hazards.md R126). -/
def assembleLine (ackSent : Bool) (line : List Char) : Option (List Event) :=
  match tokensFrom [] line with
  | some [] => some []
  | some (.name m :: ts) =>
    if m = ['A', 'P', 'P', 'L', 'Y'] then (messageTokens ts).map applyMessage
    else
      match numbers ts with
      | some args => assemble ackSent m args
      | none => none
  | _ => none

end Sys2Proof.Machine
end

