-- ==== Sys2Proof/Tests/Slice0.lean ====
section
/-!
SUPPORT. The model's own tests: words written out from the formats of spec/30_encoding.md, vectors of
spec/95_test_vectors.md, one step each; and for every statement with hypotheses a concrete state and operands that meet
them all (`witness_<statement>`).
-/

namespace Sys2Proof.Machine.Tests

/-! ### Small states -/

/-- A Color whose four bytes are the same. -/
def flat (b : Byte) : Color := ⟨b, b, b, b⟩

/-- The levels of a group, all the same. -/
def flatPins (l : Level) : Channels Level := ⟨l, l, l, l⟩

/-- The cells of a frame whose bytes are the sentinel and 1, 2, ..., 16, up to index `n`. -/
def cells (n : Nat) : Memory := ((0, 255) :: (List.range 16).map fun k => (k + 1, BitVec.ofNat 8 (k + 1))).take n

/-- The Message of the bytes 1 to 16 (V17). -/
def counting : Message := ⟨⟨1, 2, 3, 4⟩, ⟨5, 6, 7, 8⟩, ⟨9, 10, 11, 12⟩, ⟨13, 14, 15, 16⟩⟩

/-- A block in mid-use: V14's duties, group 1 High, the others Low, `n` buffer entries written. -/
def demo (idx : Fin 17) (n : Nat) (phase : Phase) : State where
  block :=
    { duty := ⟨encColor ⟨0, 1, 50, 100⟩, encColor ⟨99, 255, 2, 0⟩, encColor (flat 0), encColor (flat 9)⟩
      pin := ⟨flatPins .high, flatPins .low, flatPins .low, flatPins .low⟩
      idx := idx
      buf := cells n
      phase := phase
      msg := counting
      refused := false }
  offered := none
  msgOut := none
  sent := []
  refusals := []
  stream := []
  moves := []
  draws := 0

/-- Ready, seeking sync. -/
def seeking : State := demo 0 0 .ready

/-- AckWait, a whole frame in the buffer. -/
def waiting : State := demo 0 17 .ackWait

/-- The state with a word on the port and the host's turn next. -/
def offering (w : CmdWord) (s : State) : State := { s with offered := some w, moves := [.host] }

/-- What holds of the next state of an outcome. -/
def after (o : Host.Outcome State Fault Refusal) (p : State → Bool) : Bool :=
  match o with
  | .next t => p t
  | .fault _ => false
  | .refused _ => false

/-! ### Well-formedness and decoding -/

-- R56, R62: position 99 is legal, 100 and 127 are not
theorem test_wf_tick_99 : (Instr.tick 99).WellFormed := by decide
theorem test_wf_refuses_tick_100 : (Instr.tick 100).wellFormed = false := by decide
theorem test_wf_refuses_tick_127 : (Instr.tick 127).wellFormed = false := by decide

-- R58, bit 39 first: 0001, 29 reserved zeros, ppppppp = 42
theorem test_decode_tick :
    decode 0b0001_00000000000000000000000000000_0101010 = .ok (.tick 42) := by decide

-- R59: 0010, 28 reserved zeros, dddddddd = 0xA5
theorem test_decode_feed :
    decode 0b0010_0000000000000000000000000000_10100101 = .ok (.feed 0xA5) := by decide

-- R60: 0011, 28 reserved zeros, dddddddd = 0x55
theorem test_decode_feedErr :
    decode 0b0011_0000000000000000000000000000_01010101 = .ok (.feedErr 0x55) := by decide

-- R61: 0100, 00, qq = 10 (group 3), red 1, green 2, blue 4, white 8
theorem test_decode_setColor :
    decode 0b0100_00_10_00000001_00000010_00000100_00001000 = .ok (.setColor .group3 ⟨1, 2, 4, 8⟩) := by decide

-- V12: refusals, and which reason comes first
theorem test_decode_refuses_position_100 :
    decode 0x1000000064 = .error (.positionOutOfRange 0x1000000064) := by decide
theorem test_decode_refuses_bit_7 : decode 0x1000000080 = .error (.reservedBits 0x1000000080) := by decide
theorem test_decode_refuses_bit_34 : decode 0x4400000000 = .error (.reservedBits 0x4400000000) := by decide
theorem test_decode_refuses_opcode_0 : decode 0x0000000000 = .error (.reservedOpcode 0x0000000000) := by decide
theorem test_decode_reason_order : decode 0x1800000064 = .error (.reservedBits 0x1800000064) := by decide

-- V12: words the encoder gives
theorem test_encode_setColor : encode (.setColor .group4 ⟨10, 20, 30, 40⟩) = 0x430A141E28 := by decide
theorem test_encode_tick : encode (.tick 99) = 0x1000000063 := by decide

theorem test_table_word : decodeTableWord 40 0x4000000064 = some (.setColor .group1 ⟨0, 0, 0, 100⟩) := by decide
theorem test_table_word_refused : decodeTableWord 40 0xF0000000FF = none := by decide

/-! ### Instructions -/

-- V11, rows with a present duty
theorem test_tick1_present :
    tick1 (enc 50) .high 49 = .high ∧ tick1 (enc 50) .high 50 = .low ∧ tick1 (enc 50) .high 51 = .high ∧
    tick1 (enc 100) .low 0 = .high ∧ tick1 (enc 99) .high 99 = .low ∧ tick1 (enc 7) .low 3 = .low := by decide

-- V11, rows with an absent duty
theorem test_tick1_absent :
    tick1 .absent .high 0 = .low ∧ tick1 .absent .high 7 = .high ∧ tick1 .absent .low 99 = .low := by decide

-- V14 after TICK 0, from any start levels
theorem test_exec_tick_0 :
    after (exec (.tick 0) seeking) (fun t => decide
      (t.block.pin = ⟨⟨.low, .high, .high, .high⟩, ⟨.high, .high, .high, .low⟩, flatPins .low, flatPins .high⟩)) = true := by
  decide

-- V13, row 1: four duties, no pin
theorem test_exec_setColor :
    after (exec (.setColor .group2 ⟨0, 255, 1, 100⟩) seeking) (fun t => decide
      (t.block.duty.group2 = ⟨.absent, enc 255, enc 1, enc 100⟩ ∧ t.block.duty.group1 = seeking.block.duty.group1 ∧
       t.block.pin = seeking.block.pin)) = true := by
  decide

-- V15 and V16: the sentinel at index 0, and 0xFF at index 1 stored like any byte
theorem test_exec_feed_accumulates :
    after (exec (.feed 0xFF) (demo 1 1 .ready)) (fun t => decide
      (t.block.idx = 2 ∧ t.block.buf = [(0, 0xFF), (1, 0xFF)] ∧ t.block.phase = .ready)) = true := by
  decide

-- V17: the 17th byte
theorem test_exec_feed_completes :
    after (exec (.feed 0x10) (demo 16 16 .ready)) (fun t => decide
      (t.block.idx = 0 ∧ t.block.phase = .ackWait ∧ t.block.msg = counting ∧ t.msgOut = none ∧
       txData t = some 0xFF)) = true := by
  decide

-- V18: at idx 5 nothing changes but the port
theorem test_exec_feedErr :
    after (exec (.feedErr 0x55) { demo 5 5 .ready with offered := some 0 }) (fun t => decide (t = demo 5 5 .ready)) =
      true := by
  decide

/-! ### Steps -/

-- V19: a TICK offered in AckWait is held
theorem test_step_held :
    after (step (offering 0x1000000005 waiting)) (fun t => decide
      (t.block = waiting.block ∧ t.offered = some 0x1000000005)) = true := by
  decide

-- V19: TX_ACCEPT delivers the Message for this step, and the next step ends it
theorem test_step_txAccept :
    after (step { waiting with moves := [.txAccept] }) (fun t =>
      decide (t.block.phase = .ready ∧ t.msgOut = some counting ∧ t.sent = [0xFF]) &&
        after (step t) fun u => decide (u.msgOut = none)) = true := by
  decide

-- V20: RESET in AckWait, both draws
theorem test_step_reset_draws :
    after (step { waiting with moves := [.reset true] }) (fun t => decide (t.sent = [0xFF] ∧ t.block.phase = .ready)) =
      true ∧
    after (step { waiting with moves := [.reset false] }) (fun t => decide (t.sent = [] ∧ t.msgOut = none)) = true := by
  decide

-- V28: a refused word marks and changes no state, and RESET keeps the mark
theorem test_step_refused_sticky :
    after (step { offering 0x1000000064 (demo 3 3 .ready) with moves := [.host, .reset true] }) (fun t =>
      decide (t.block = { (demo 3 3 .ready).block with refused := true } ∧ t.offered = none ∧
        t.refusals = [.positionOutOfRange 0x1000000064]) &&
        after (step t) fun u => decide (u.block.refused = true ∧ u.block.idx = 0)) = true := by
  decide

-- the host's first question of the model: a word placed by withFetchWord is the first instruction after reset
theorem test_step_from_reset :
    after (step (State.reset.withFetchWord 40 0x20000000FF)) (fun t => decide
      (t.block.idx = 1 ∧ t.block.buf = [(0, 0xFF)])) = true := by
  decide

-- R65: a line of text, with a comment
theorem test_assemble_setColor :
    assembleLine true ['S', 'E', 'T', '_', 'C', 'O', 'L', 'O', 'R', ' ', '4', ',', '0', 'x', '0', 'A', ',', ' ', '2', '0',
      ',', '3', '0', ',', '4', '0', ' ', ';', '!'] = some [.op (.setColor .group4 ⟨10, 20, 30, 40⟩)] := by
  decide
theorem test_assemble_refuses_tick_100 :
    assembleLine true ['T', 'I', 'C', 'K', ' ', '1', '0', '0'] = none := by decide

/-! ### Witnesses: the hypotheses of each statement, met together -/

theorem witness_DecodeEncodeAgree : (Instr.tick 99).WellFormed ∧ (Instr.setColor .group4 (flat 255)).WellFormed := by
  decide

theorem witness_EncodeDecodeAgree : decode 0x1000000063 = .ok (.tick 99) := by decide

theorem witness_RefusalReasonsOfWords :
    decode 0xF0000000FF = .error (.reservedOpcode 0xF0000000FF) ∧
    decode 0x5000000000 = .error (.reservedOpcode 0x5000000000) ∧
    decode 0x2000000100 = .error (.reservedBits 0x2000000100) ∧
    decode 0x100000007F = .error (.positionOutOfRange 0x100000007F) ∧
    (offering 0x100000007F seeking).moves = .host :: [] ∧ seeking.block.phase = .ready ∧
    (present (offering 0x100000007F seeking)).offered = some 0x100000007F := by
  decide

theorem witness_StepRunsOfferedOperation :
    (offering 0x1000000005 seeking).moves = .host :: [] ∧
    (present (offering 0x1000000005 seeking)).offered = some 0x1000000005 ∧
    decode 0x1000000005 = .ok (.tick 5) := by
  decide

theorem witness_RefusedWordChangesNoState :
    (offering 0x1000000064 seeking).moves = .host :: [] ∧ (offering 0x1000000064 seeking).block.phase = .ready ∧
    (present (offering 0x1000000064 seeking)).offered = some 0x1000000064 ∧
    decode 0x1000000064 = .error (.positionOutOfRange 0x1000000064) := by
  decide

theorem witness_RefusalMarkIsSticky :
    (∃ t, step (offering 0x1000000064 seeking) = .next t) ∧
    ∃ r : Nat → State, IsRun r ∧ (r 0).block.refused = true :=
  ⟨⟨_, rfl⟩, fun _ => { seeking with block := { seeking.block with refused := true } }, fun _ => rfl, rfl⟩

theorem witness_DutyEncodingIsBijective : (1 : Byte) ≠ 0 ∧ (255 : Byte) ≠ 0 := by decide

theorem witness_SetColorWritesOneGroup :
    seeking.block.phase = .ready ∧ Group.group2 ≠ .group1 ∧ waiting.block.phase = .ackWait := by decide

theorem witness_TickMovesEveryPin :
    (0 : PosField).toNat ≤ 99 ∧ (99 : PosField).toNat ≤ 99 ∧ seeking.block.phase = .ready ∧
    waiting.block.phase = .ackWait := by
  decide

theorem witness_TickTermOutOfRangeIsRefused :
    100 ≤ (100 : PosField).toNat ∧ 100 ≤ (127 : PosField).toNat ∧ seeking.block.phase = .ready := by decide

theorem witness_TickSetColorFeedErrIdempotent :
    (Instr.tick 99).WellFormed ∧ (∀ d, Instr.tick 99 ≠ .feed d) ∧ ∃ t, exec (.tick 99) seeking = .next t :=
  ⟨by decide, (fun _ h => nomatch h), ⟨_, rfl⟩⟩

theorem witness_SetColorSeenByNextTick :
    (99 : PosField).toNat ≤ 99 ∧ tickPositions [.op (.feed 7), .op (.setColor .group2 (flat 1))] = [] ∧
    leavesDuty .group1 [.op (.feed 7), .op (.setColor .group2 (flat 1))] = true ∧
    (runEvents (.op (.setColor .group1 (flat 99)) :: [.op (.feed 7), .op (.setColor .group2 (flat 1))] ++
      [.op (.tick 99)]) seeking).isSome = true := by
  decide

/-- One position of a cycle, with another group's SET_COLOR between. -/
def shortCycle : List Event := [.op (.tick 0), .op (.setColor .group3 (flat 5)), .op (.tick 1)]

theorem witness_FullCycleDutyLaw_run :
    (1 : Nat) ≤ 99 ∧ tickPositions shortCycle = List.range (1 + 1) ∧ leavesDuty .group1 shortCycle = true ∧
    (runEvents shortCycle seeking).isSome = true := by
  decide

theorem witness_FullCycleDutyLaw_last_position :
    (99 : Nat) ≤ 99 ∧ tickPositions fullCycle = List.range (99 + 1) ∧ leavesDuty .group1 fullCycle = true := by
  decide

theorem witness_FullCycleDutyLaw_clauses :
    (dutyAt seeking .group1 .blue = enc 50 ∧ (50 : Byte).toNat ≤ 99 ∧ 1 < (50 : Byte).toNat) ∧
    (dutyAt seeking .group1 .green = enc 1 ∧ (1 : Byte).toNat ≤ 99 ∧ (1 : Byte).toNat ≤ 1) ∧
    dutyAt seeking .group1 .red = .absent ∧
    (dutyAt seeking .group1 .white = enc 100 ∧ 100 ≤ (100 : Byte).toNat) := by
  decide

theorem witness_HighCountIsDuty :
    seeking.block.phase = .ready ∧ tickPositions fullCycle = List.range 100 ∧ leavesDuty .group1 fullCycle = true ∧
    (runEvents fullCycle seeking).isSome = true := by
  decide

/-- The end of a cycle after position 97. -/
def cycleEnd : List Event := [.op (.tick 98), .op (.tick 99)]

theorem witness_MidCycleDutyChange :
    (97 : Nat) < 99 ∧ (99 : Nat) ≤ 99 ∧ tickPositions cycleEnd = List.range' (97 + 1) (99 - 97) ∧
    leavesDuty .group1 cycleEnd = true ∧
    (runEvents (.op (.setColor .group1 ⟨98, 99, 97, 100⟩) :: cycleEnd) seeking).isSome = true ∧
    (runEvents (.op (.setColor .group2 (flat 50)) :: cycleEnd) seeking).isSome = true := by
  decide

theorem witness_MidCycleDutyChange_clauses :
    pinAt seeking .group2 .red = .low ∧
    (pinAt seeking .group1 .red = .high ∧ 97 < (98 : Byte).toNat ∧ (99 : Byte).toNat ≤ 99) ∧
    (pinAt seeking .group1 .blue = .high ∧ (97 : Byte).toNat ≤ 97 ∧ 100 ≤ (100 : Byte).toNat) ∧
    tickPositions [tickOf 0] = List.range (0 + 1) ∧ leavesDuty .group1 [tickOf 0] = true ∧
    ((runEvents (.op (.setColor .group1 ⟨98, 99, 97, 100⟩) :: cycleEnd) seeking).bind (runEvents [tickOf 0])).isSome =
      true := by
  decide

theorem witness_LevelsWithoutPositionZero :
    0 ∉ tickPositions [.op (.tick 50), .op (.tick 99), .op (.tick 1)] ∧
    (∀ p ∈ tickPositions [.op (.tick 50), .op (.tick 99), .op (.tick 1)], p ≤ 99) ∧
    leavesDuty .group1 [.op (.tick 50), .op (.tick 99), .op (.tick 1)] = true ∧
    (runEvents [.op (.tick 50), .op (.tick 99), .op (.tick 1)] seeking).isSome = true ∧
    dutyAt seeking .group1 .blue = enc 50 ∧ dutyAt seeking .group1 .white = enc 100 := by
  decide

theorem witness_ChannelsAreIndependent :
    (99 : PosField).toNat ≤ 99 ∧ seeking.block.phase = .ready ∧ (demo 5 5 .ready).block.phase = .ready ∧
    dutyAt seeking .group1 .red = dutyAt (demo 5 5 .ready) .group1 .red ∧
    pinAt seeking .group1 .red = pinAt (demo 5 5 .ready) .group1 .red ∧ Group.group2 ≠ .group1 ∧
    after (exec (.tick 99) seeking) (fun _ => true) = true ∧
    after (exec (.tick 99) (demo 5 5 .ready)) (fun _ => true) = true ∧
    after (exec (.setColor .group1 (flat 3)) seeking) (fun _ => true) = true := by
  decide

theorem witness_SourceSchedulerScenario : seeking.block.phase = .ready ∧ (99 : Nat) ≤ 99 := by decide

theorem witness_SchedulerLeavesDecoder :
    (∃ t, exec (.tick 3) (demo 5 5 .ready) = .next t) ∧
    ∃ t, exec (.setColor .group1 (flat 3)) (demo 5 5 .ready) = .next t :=
  ⟨⟨_, rfl⟩, ⟨_, rfl⟩⟩

theorem witness_FeedWhileSeeking :
    seeking.block.phase = .ready ∧ seeking.block.idx = 0 ∧ (0xFE : Byte) ≠ 0xFF := by decide

theorem witness_FeedAccumulates :
    (demo 1 1 .ready).block.phase = .ready ∧ 1 ≤ (demo 1 1 .ready).block.idx.val ∧
    (demo 15 15 .ready).block.phase = .ready ∧ (demo 15 15 .ready).block.idx.val ≤ 15 := by
  decide

theorem witness_FeedCompletesFrame :
    (demo 16 16 .ready).block.phase = .ready ∧ (demo 16 16 .ready).block.idx = 16 := by decide

theorem witness_FeedErrIsDiscarded :
    (demo 16 16 .ready).block.phase = .ready ∧ waiting.block.phase = .ackWait := by decide

/-- The invariant holds of a frame one byte short. -/
theorem demo_inv : Inv (demo 16 16 .ready) where
  bufferCanonical := by decide
  sentinelStored := by decide
  framePrefixWritten := by decide
  waitingSeeks := (fun h => nomatch h)
  waitingHoldsFrame := (fun h => nomatch h)
  waitingFrameWritten := (fun h => nomatch h)
  onlyAcksSent := (fun _ h => nomatch h)
  markMatchesRecord := by decide

theorem witness_CompletedMessageIgnoresFreeValues :
    Inv (demo 16 16 .ready) ∧ (demo 16 16 .ready).block.phase = .ready ∧ (demo 16 16 .ready).block.idx = 16 :=
  ⟨demo_inv, rfl, rfl⟩

theorem witness_ResyncRobustness :
    seeking.block.phase = .ready ∧ seeking.block.idx = 0 ∧ (∀ b ∈ ([0x00, 0xFE] : List Byte), b ≠ 0xFF) ∧
    (18 : Nat) < ([0x00, 0xFE] : List Byte).length + 17 := by
  decide

theorem witness_LostByteMisalignsStream :
    seeking.block.phase = .ready ∧ seeking.block.idx = 0 ∧ (∀ b ∈ payloadBytes counting, b ≠ 0xFF) := by decide

theorem witness_FeedsAccumulateAcrossOtherSteps :
    (demo 15 15 .ready).block.phase = .ready ∧ 1 ≤ (demo 15 15 .ready).block.idx.val ∧
    (demo 15 15 .ready).block.idx.val + (fedBytes [.op (.tick 3), .op (.feed 7), .op (.feedErr 8)]).length ≤ 16 ∧
    (∀ a, Event.reset a ∉ [.op (.tick 3), .op (.feed 7), .op (.feedErr 8)]) ∧
    (runEvents [.op (.tick 3), .op (.feed 7), .op (.feedErr 8)] (demo 15 15 .ready)).isSome = true := by
  decide

theorem witness_TxAcceptDeliversMessage :
    ({ waiting with moves := [.txAccept] } : State).moves = .txAccept :: [] ∧
    ({ waiting with moves := [.txAccept] } : State).block.phase = .ackWait := by
  decide

theorem witness_StepWithNothingToDoWaits :
    seeking.moves = [] ∧
    (({ seeking with moves := [.host] } : State).moves.head? = some .host ∧ seeking.offered = none ∧
      seeking.stream = []) ∧
    (({ seeking with moves := [.txAccept] } : State).moves.head? = some .txAccept ∧ seeking.block.phase = .ready) := by
  decide

theorem witness_HoldDuringAckWait :
    (offering 0x1000000005 waiting).block.phase = .ackWait ∧ (offering 0x1000000005 waiting).moves = .host :: [] ∧
    (present (offering 0x1000000005 waiting)).offered = some 0x1000000005 ∧ decode 0x1000000005 = .ok (.tick 5) ∧
    after (step { waiting with moves := [.txAccept] }) (fun t => decide (t.block.phase = .ready)) = true := by
  decide

theorem witness_IllegalWordHeldInAckWait :
    (offering 0x5000000000 waiting).moves = .host :: [] ∧ (offering 0x5000000000 waiting).block.phase = .ackWait ∧
    (present (offering 0x5000000000 waiting)).offered = some 0x5000000000 ∧
    decode 0x5000000000 = .error (.reservedOpcode 0x5000000000) := by
  decide

theorem witness_PhaseChangesOnlyBy :
    (∃ t, step (offering 0x20000000FF (demo 16 16 .ready)) = .next t) ∧
    (demo 16 16 .ready).block.phase = .ready ∧ (∃ t, step { waiting with moves := [.reset true] } = .next t) ∧
    waiting.block.phase = .ackWait :=
  ⟨⟨_, rfl⟩, rfl, ⟨_, rfl⟩, rfl⟩

theorem witness_MessagePortValidForOneStep : ∃ t, step { waiting with moves := [.txAccept] } = .next t := ⟨_, rfl⟩

/-- A run whose first step completes a frame. -/
def ackRun : Nat → State
  | 0 => offering 0x2000000010 (demo 16 16 .ready)
  | _ + 1 => { waiting with block := { waiting.block with buf := cells 17 } }

theorem ackRun_isRun : IsRun ackRun := fun n =>
  match n with
  | 0 => rfl
  | _ + 1 => rfl

theorem witness_AckCountEqualsCompletedFrames :
    IsRun ackRun ∧ (∀ k, k < 1 → takesReset (ackRun k) = false) ∧ completesFrame (ackRun 0) = true :=
  ⟨ackRun_isRun, by decide, by decide⟩

theorem witness_OneMessagePerCompletedFrame :
    IsRun ackRun ∧ (∀ k, k < 1 → takesReset (ackRun k) = false) ∧ (ackRun 1).block.phase = .ackWait :=
  ⟨ackRun_isRun, by decide, rfl⟩

/-- A run in which the transmitter never steps: a host operation is offered and held. -/
def stallRun : Nat → State
  | 0 => offering 0x1000000005 waiting
  | _ + 1 => { offering 0x1000000005 waiting with moves := [] }

theorem witness_StalledTransmitterFreezesBlock :
    IsRun stallRun ∧ (stallRun 0).block.phase = .ackWait ∧ ∀ m ∈ (stallRun 0).moves, m = .host :=
  ⟨fun n => match n with
    | 0 => rfl
    | _ + 1 => rfl, rfl, by decide⟩

/-- A run in which the transmitter accepts at once. -/
def fairRun : Nat → State
  | 0 => { waiting with moves := [.txAccept] }
  | 1 => { demo 0 17 .ready with msgOut := some counting, sent := [0xFF] }
  | _ + 2 => { demo 0 17 .ready with sent := [0xFF] }

theorem fairRun_isRun : IsRun fairRun := fun n =>
  match n with
  | 0 => rfl
  | 1 => rfl
  | _ + 2 => rfl

theorem fairRun_fair : TransmitterFair fairRun := fun n h =>
  match n with
  | 0 => ⟨0, Nat.le_refl 0, .inl rfl⟩
  | 1 => nomatch h
  | _ + 2 => nomatch h

theorem witness_FairTransmitterEndsEveryHold :
    IsRun fairRun ∧ TransmitterFair fairRun ∧ (fairRun 0).block.phase = .ackWait :=
  ⟨fairRun_isRun, fairRun_fair, rfl⟩

theorem witness_DutyWrittenOnlyBySetColor :
    after (step (offering 0x4000000064 seeking)) (fun t => decide
      (dutyAt t .group1 .green ≠ dutyAt seeking .group1 .green)) = true := by
  decide

theorem witness_PinWrittenOnlyByTick :
    after (step (offering 0x1000000000 seeking)) (fun t => decide
      (pinAt t .group2 .red ≠ pinAt seeking .group2 .red)) = true := by
  decide

theorem witness_IndexReturnsToZeroOnlyBy :
    (demo 16 16 .ready).block.idx ≠ 0 ∧
    after (step (offering 0x20000000FF (demo 16 16 .ready))) (fun t => decide (t.block.idx = 0)) = true := by
  decide

theorem witness_ApplyMessageSetsEveryDuty : seeking.block.phase = .ready := rfl

theorem witness_EventRunsAreStepRuns :
    OpsLegal [.op (.tick 99), .reset true] ∧ ∃ t, runEvents [.op (.tick 99), .reset true] seeking = some t :=
  ⟨fun i h => by simp only [List.mem_cons, Event.op.injEq, List.not_mem_nil, or_false, reduceCtorEq] at h; subst h; decide,
   ⟨_, rfl⟩⟩

theorem witness_ResetEventSetsState :
    ({ offering 0x1000000005 waiting with moves := [.reset false] } : State).moves = .reset false :: [] ∧
    waiting.block.phase = .ackWait := by
  decide

theorem witness_ResetDuringAckWait :
    ({ waiting with moves := [.reset true] } : State).moves = .reset true :: [] ∧ waiting.block.phase = .ackWait := by
  decide

theorem witness_StepKeepsInvariant :
    Inv (offering 0x20000000FF (demo 16 16 .ready)) ∧ ∃ t, step (offering 0x20000000FF (demo 16 16 .ready)) = .next t :=
  ⟨⟨demo_inv.1, demo_inv.2, demo_inv.3, demo_inv.4, (fun h => nomatch h), demo_inv.6, demo_inv.7, demo_inv.8⟩, ⟨_, rfl⟩⟩

end Sys2Proof.Machine.Tests
end

section
/-!
PROOF. The duty encoding of 30_encoding.md: `enc` (R54) and the byte a duty register stores (R55) are inverse to each
other.
-/
namespace Sys2Proof.Machine

@[simp] theorem storedByte_absent : storedByte .absent = 0 := rfl

@[simp] theorem storedByte_present (v : { b : Byte // b ≠ 0 }) : storedByte (.present v) = v.val := rfl

@[simp] theorem storedByte_enc (b : Byte) : storedByte (enc b) = b := by
  by_cases h : b = 0
  · rw [h, enc_zero, storedByte_absent]
  · rw [enc_of_ne_zero h, storedByte_present]

@[simp] theorem enc_storedByte (d : Duty) : enc (storedByte d) = d := by
  cases d with
  | absent => rw [storedByte_absent, enc_zero]
  | present v => rw [storedByte_present, enc_of_ne_zero v.property]

/-- Settles O8: the two equations of `enc`, and `storedByte` as its inverse on both sides. -/
theorem dutyEncodingIsBijective : Obligations.DutyEncodingIsBijective :=
  ⟨enc_zero, fun _ h => enc_of_ne_zero h, storedByte_enc, enc_storedByte⟩

end Sys2Proof.Machine
end

section
/-!
PROOF. One channel of the PWM scheduler (40_pwm_scheduler.md): what each operation does to its duty register and its
pin, and what TICK and SET_COLOR leave unchanged around them.
-/
namespace Sys2Proof.Machine

/-! ### A channel's two registers under the state's operations -/

@[simp] theorem dutyAt_consume (s : State) (g : Group) (c : Channel) : dutyAt (consume s) g c = dutyAt s g c := rfl
@[simp] theorem pinAt_consume (s : State) (g : Group) (c : Channel) : pinAt (consume s) g c = pinAt s g c := rfl

@[simp] theorem dutyAt_tickAll (p : PosField) (s : State) (g : Group) (c : Channel) :
    dutyAt (tickAll p s) g c = dutyAt s g c := rfl

@[simp] theorem pinAt_setDuty (s : State) (g k : Group) (c : Channel) (d : Channels Duty) :
    pinAt (setDuty g d s) k c = pinAt s k c := rfl

/-! ### TICK and SET_COLOR where they are accepted -/

theorem legal_iff (p : PosField) : p.Legal ↔ p.toNat ≤ 99 := Nat.lt_succ_iff

theorem exec_tick_of_legal {p : PosField} {s : State} (hp : p.Legal) (hs : s.block.phase = .ready) :
    exec (.tick p) s = .next (consume (tickAll p s)) := by
  rw [exec_tick, accept_ready hs, if_pos hp]

theorem exec_setColor_ready {s : State} (g : Group) (color : Color) (hs : s.block.phase = .ready) :
    exec (.setColor g color) s = .next (consume (setDuty g (encColor color) s)) := by
  rw [exec_setColor, accept_ready hs]

/-- The frame of an operation that writes duty registers and pins only, and is consumed (R67, R68, R74). -/
theorem schedulerWrite_frame {s t : State}
    (h : t = { s with block := { s.block with duty := t.block.duty, pin := t.block.pin }, offered := none }) :
    DecoderKept s t ∧ MarksKept s t ∧ SurroundingsKept s t ∧ t.offered = none := by
  rw [h]
  exact ⟨⟨rfl, fun i => memRead_congr rfl rfl i, rfl, rfl⟩, ⟨rfl, rfl⟩, ⟨rfl, rfl, rfl, rfl, rfl⟩, rfl⟩

theorem consume_setDuty_frame (s : State) (g : Group) (d : Channels Duty) :
    DecoderKept s (consume (setDuty g d s)) ∧ MarksKept s (consume (setDuty g d s)) ∧
      SurroundingsKept s (consume (setDuty g d s)) ∧ (consume (setDuty g d s)).offered = none :=
  schedulerWrite_frame rfl

theorem consume_tickAll_frame (s : State) (p : PosField) :
    DecoderKept s (consume (tickAll p s)) ∧ MarksKept s (consume (tickAll p s)) ∧
      SurroundingsKept s (consume (tickAll p s)) ∧ (consume (tickAll p s)).offered = none :=
  schedulerWrite_frame rfl

/-! ### The level rule over the brightness and the position as numbers -/

/-- The brightness a channel's duty register stores, as a number (R55). -/
def brightness (s : State) (g : Group) (c : Channel) : Nat := (storedByte (dutyAt s g c)).toNat

theorem storedByte_toNat_eq_zero (d : Duty) : (storedByte d).toNat = 0 ↔ d = .absent := by
  cases d with
  | absent => simp
  | present v => simpa [BitVec.toNat_eq] using v.property

/-- R69's level rule for a channel of brightness `b`; `tick1_eq_nextLevel` ties it to `tick1`. -/
def nextLevel (b : Nat) (l : Level) (p : Nat) : Level :=
  if p = 0 then (if b = 0 then .low else .high) else if b = p then .low else l

/-- Where the position is not 0, the compare of R69 is one of numbers: the 0 that stands for Absent never matches. -/
theorem dutyMatches_iff_storedByte {p : PosField} (hp : p.toNat ≠ 0) (d : Duty) :
    dutyMatches p d = true ↔ (storedByte d).toNat = p.toNat := by
  cases d with
  | absent => simpa [dutyMatches] using hp.symm
  | present v => simp [dutyMatches]

theorem tick1_eq_nextLevel (d : Duty) (l : Level) (p : PosField) :
    tick1 d l p = nextLevel (storedByte d).toNat l p.toNat := by
  by_cases hp : p = 0
  · have hp0 : p.toNat = 0 := by rw [hp]; rfl
    rw [tick1, nextLevel, if_pos hp, if_pos hp0, if_congr (storedByte_toNat_eq_zero d) rfl rfl]
  · have hp0 : p.toNat ≠ 0 := fun h => hp (BitVec.eq_of_toNat_eq h)
    rw [tick1, nextLevel, if_neg hp, if_neg hp0, if_congr (dutyMatches_iff_storedByte hp0 d) rfl rfl]

/-- What TICK gives a channel, from its brightness, its level and the position alone (R82). -/
theorem pinAt_tickAll_eq_nextLevel (p : PosField) (s : State) (g : Group) (c : Channel) :
    pinAt (tickAll p s) g c = nextLevel (brightness s g c) (pinAt s g c) p.toNat := by
  rw [pinAt_tickAll, tick1_eq_nextLevel, brightness]

/-- Settles O9: the accepted effect is `setDuty` with the Color's encoding, in its frame. -/
theorem setColorWritesOneGroup : Obligations.SetColorWritesOneGroup := by
  intro s g color
  refine ⟨fun hs => ⟨_, exec_setColor_ready g color hs, fun c => by simp, fun k c hk => by simp [hk],
    fun _ _ => rfl, consume_setDuty_frame s g _⟩, fun hs => ?_⟩
  rw [exec_setColor, accept_ackWait hs]

/-- Settles O10: `tick1` in the numbers of R69, and the frame of TICK. -/
theorem tickMovesEveryPin : Obligations.TickMovesEveryPin := by
  intro s p hp
  refine ⟨fun hs => ⟨_, exec_tick_of_legal ((legal_iff p).2 hp) hs, fun g c => ?_, fun _ _ => rfl,
    consume_tickAll_frame s p⟩, fun hs => ?_⟩
  · rw [pinAt_consume, pinAt_tickAll_eq_nextLevel, nextLevel, brightness,
      if_congr (storedByte_toNat_eq_zero _) rfl rfl]
  · rw [exec_tick, accept_ackWait hs]

/-- Settles O18: TICK's level is `tick1` of the channel's own duty and level, and SET_COLOR, accepted or held, keeps
another group's duties. -/
theorem channelsAreIndependent : Obligations.ChannelsAreIndependent := by
  constructor
  · intro s s' t t' g c p hp hs hs' hduty hpin ht ht'
    have hlegal := (legal_iff p).2 hp
    rw [exec_tick_of_legal hlegal hs] at ht
    rw [exec_tick_of_legal hlegal hs'] at ht'
    cases ht
    cases ht'
    rw [pinAt_consume, pinAt_consume, pinAt_tickAll, pinAt_tickAll, hduty, hpin]
  · intro s t g k color c hk ht
    rw [exec_setColor] at ht
    obtain ⟨-, rfl⟩ | ⟨-, rfl⟩ := accept_cases ht
    · simp [hk]
    · rfl

end Sys2Proof.Machine
end

section
/-!
PROOF. One channel along a run of events (40_pwm_scheduler.md section 2): its level is the level rule folded over the
positions of the run's TICKs, whatever other steps come between.
-/
namespace Sys2Proof.Machine

/-! ### The run's list functions, event by event -/

theorem tickPositions_cons (e : Event) (es : List Event) :
    tickPositions (e :: es) = tickPositions [e] ++ tickPositions es := by
  cases e with
  | op i => cases i <;> rfl
  | txAccept => rfl
  | reset a => rfl

theorem leavesDuty_cons (g : Group) (e : Event) (es : List Event) :
    leavesDuty g (e :: es) = (leavesDuty g [e] && leavesDuty g es) := by
  cases e with
  | op i => cases i <;> simp [leavesDuty]
  | txAccept => rfl
  | reset a => rfl

/-- Only a TICK has a position. -/
theorem isTick_or_noPosition (e : Event) : (∃ p, e = .op (.tick p)) ∨ tickPositions [e] = [] := by
  cases e with
  | op i =>
    cases i with
    | tick p => exact .inl ⟨p, rfl⟩
    | feed d => exact .inr rfl
    | feedErr d => exact .inr rfl
    | setColor k color => exact .inr rfl
  | txAccept => exact .inr rfl
  | reset a => exact .inr rfl

theorem levelsAtTicks_tick {p : PosField} {s t : State} (g : Group) (c : Channel) (es : List Event)
    (h : applyEvent (.op (.tick p)) s = some t) :
    levelsAtTicks g c (.op (.tick p) :: es) s = pinAt t g c :: levelsAtTicks g c es t := by
  simp only [levelsAtTicks, h]

theorem levelsAtTicks_noPosition {e : Event} {s t : State} (g : Group) (c : Channel) (es : List Event)
    (h : applyEvent e s = some t) (he : tickPositions [e] = []) :
    levelsAtTicks g c (e :: es) s = levelsAtTicks g c es t := by
  cases e with
  | op i =>
    cases i with
    | tick p => cases he
    | feed d => simp only [levelsAtTicks, h]
    | feedErr d => simp only [levelsAtTicks, h]
    | setColor k color => simp only [levelsAtTicks, h]
  | txAccept => simp only [levelsAtTicks, h]
  | reset a => simp only [levelsAtTicks, h]

/-! ### One event and one channel -/

theorem feedByte_keeps_channel (d : Byte) (s : State) (g : Group) (c : Channel) :
    dutyAt (feedByte d s) g c = dutyAt s g c ∧ pinAt (feedByte d s) g c = pinAt s g c := by
  rw [feedByte_frame]
  exact ⟨rfl, rfl⟩

theorem txAccept_keeps_channel (s : State) (g : Group) (c : Channel) :
    dutyAt (txAccept s) g c = dutyAt s g c ∧ pinAt (txAccept s) g c = pinAt s g c := by
  cases hp : s.block.phase with
  | ready => rw [txAccept_ready hp]; exact ⟨rfl, rfl⟩
  | ackWait => rw [txAccept_ackWait hp]; exact ⟨rfl, rfl⟩

/-- An operation event is the operation's effect, consumed, with the message port cleared. -/
theorem applyEvent_op_effect {i : Instr} {f : State → State} {s t : State} (hf : ∀ u, exec i u = accept f u)
    (h : applyEvent (.op i) s = some t) : t = consume (f { s with msgOut := none }) := by
  obtain ⟨hs, ht⟩ := applyEvent_op h
  rw [hf, accept_ready (s := { s with msgOut := none }) hs] at ht
  exact (Host.Outcome.next.inj ht).symm

theorem applyEvent_tick {p : PosField} {s t : State} (hp : p.Legal) (h : applyEvent (.op (.tick p)) s = some t)
    (g : Group) (c : Channel) :
    dutyAt t g c = dutyAt s g c ∧ pinAt t g c = tick1 (dutyAt s g c) (pinAt s g c) p := by
  have ht := applyEvent_op_effect (exec_tick p) h
  rw [if_pos hp] at ht
  subst ht
  exact ⟨rfl, pinAt_tickAll p _ g c⟩

theorem applyEvent_setColor {k : Group} {color : Color} {s t : State}
    (h : applyEvent (.op (.setColor k color)) s = some t) (g : Group) (c : Channel) :
    dutyAt t g c = (if g = k then enc (color.get c) else dutyAt s g c) ∧ pinAt t g c = pinAt s g c := by
  obtain rfl := applyEvent_op_effect (exec_setColor k color) h
  refine ⟨?_, rfl⟩
  rw [dutyAt_consume, dutyAt_setDuty, encColor_get]
  rfl

/-- An event that is no TICK, no RESET and no SET_COLOR of the group keeps the group's channels. -/
theorem applyEvent_keeps_channel {e : Event} {s t : State} {g : Group} (h : applyEvent e s = some t)
    (hd : leavesDuty g [e] = true) (he : tickPositions [e] = []) (c : Channel) :
    dutyAt t g c = dutyAt s g c ∧ pinAt t g c = pinAt s g c := by
  cases e with
  | op i =>
    cases i with
    | tick p => cases he
    | feed d =>
      obtain rfl := applyEvent_op_effect (exec_feed d) h
      exact feedByte_keeps_channel d { s with msgOut := none } g c
    | feedErr d =>
      obtain rfl := applyEvent_op_effect (exec_feedErr d) h
      exact ⟨rfl, rfl⟩
    | setColor k color =>
      have hk : k ≠ g := by simpa [leavesDuty] using hd
      simpa [hk.symm] using applyEvent_setColor h g c
  | txAccept =>
    obtain ⟨-, rfl⟩ := applyEvent_txAccept h
    exact txAccept_keeps_channel { s with msgOut := none } g c
  | reset a => cases hd

/-! ### A run and one channel -/

/-- The levels of a channel of brightness `b` after each of a list of positions. -/
def levelsOver (b : Nat) : Level → List Nat → List Level
  | _, [] => []
  | l, p :: ps => nextLevel b l p :: levelsOver b (nextLevel b l p) ps

/-- A channel along a run that leaves its duty: the positions of the TICKs alone decide its level at the end and its
levels on the way. -/
theorem runEvents_channel {es : List Event} {s t : State} {g : Group} (hrun : runEvents es s = some t)
    (hd : leavesDuty g es = true) (hpos : ∀ p ∈ tickPositions es, p ≤ 99) (c : Channel) :
    dutyAt t g c = dutyAt s g c ∧
    pinAt t g c = (tickPositions es).foldl (nextLevel (brightness s g c)) (pinAt s g c) ∧
    levelsAtTicks g c es s = levelsOver (brightness s g c) (pinAt s g c) (tickPositions es) := by
  induction es generalizing s with
  | nil =>
    cases hrun
    exact ⟨rfl, rfl, rfl⟩
  | cons e es ih =>
    obtain ⟨u, hu, hrest⟩ := runEvents_cons hrun
    rw [leavesDuty_cons, Bool.and_eq_true] at hd
    obtain ⟨hde, hdes⟩ := hd
    rw [tickPositions_cons] at hpos ⊢
    obtain ⟨hduty, hpin, hlevels⟩ := ih hrest hdes fun p hp => hpos p (List.mem_append_right _ hp)
    obtain ⟨p, rfl⟩ | hnone := isTick_or_noPosition e
    · have hp : p.Legal := (legal_iff p).2 (hpos _ (List.mem_append_left _ (List.mem_singleton_self _)))
      obtain ⟨hu_duty, hu_pin⟩ := applyEvent_tick hp hu g c
      have hb : brightness u g c = brightness s g c := by rw [brightness, hu_duty, brightness]
      rw [tick1_eq_nextLevel, ← brightness] at hu_pin
      rw [hb, hu_pin] at hpin hlevels
      refine ⟨hduty.trans hu_duty, hpin, ?_⟩
      rw [levelsAtTicks_tick g c es hu, hlevels, hu_pin]
      rfl
    · obtain ⟨hu_duty, hu_pin⟩ := applyEvent_keeps_channel hu hde hnone c
      have hb : brightness u g c = brightness s g c := by rw [brightness, hu_duty, brightness]
      rw [hb, hu_pin] at hpin hlevels
      rw [hnone, levelsAtTicks_noPosition g c es hu hnone]
      exact ⟨hduty.trans hu_duty, hpin, hlevels⟩

/-- The run's first event sets the channel's duty; the rest leaves it. -/
theorem runEvents_setColor {g : Group} {color : Color} {es : List Event} {s t : State}
    (h : runEvents (.op (.setColor g color) :: es) s = some t) (c : Channel) :
    ∃ u, runEvents es u = some t ∧ dutyAt u g c = enc (color.get c) ∧ brightness u g c = (color.get c).toNat ∧
      pinAt u g c = pinAt s g c := by
  obtain ⟨u, hu, hrest⟩ := runEvents_cons h
  obtain ⟨hduty, hpin⟩ := applyEvent_setColor hu g c
  rw [if_pos rfl] at hduty
  exact ⟨u, hrest, hduty, by rw [brightness, hduty, storedByte_enc], hpin⟩

/-- Settles O13: the steps between keep the channel, and the TICK reads the duty that SET_COLOR wrote. -/
theorem setColorSeenByNextTick : Obligations.SetColorSeenByNextTick := by
  intro s t g color es p c hp hnone hd hrun
  rw [List.cons_append] at hrun
  obtain ⟨u, hu, hu_duty, -, hu_pin⟩ := runEvents_setColor hrun c
  rw [runEvents_append, Option.bind_eq_some_iff] at hu
  obtain ⟨v, hv, htick⟩ := hu
  obtain ⟨hv_duty, hv_pin, -⟩ := runEvents_channel hv hd (by simp [hnone]) c
  obtain ⟨t', ht', hend⟩ := runEvents_cons htick
  cases hend
  obtain ⟨-, ht_pin⟩ := applyEvent_tick ((legal_iff p).2 hp) ht' g c
  rw [hnone, List.foldl_nil] at hv_pin
  rw [ht_pin, hv_duty, hv_pin, hu_duty, hu_pin]

end Sys2Proof.Machine
end

section
/-!
PROOF. The duty laws of 40_pwm_scheduler.md: the level over positions in order (R75 to R78), and the count of High
positions over a full cycle (R84).
-/
namespace Sys2Proof.Machine

/-! ### The level rule over lists of positions -/

/-- The level of brightness `b` at position `q` of a full in-order cycle: High at 0 to `b - 1` (R75). -/
def cycleLevel (b q : Nat) : Level := if q < b then .high else .low

theorem cycleLevel_of_lt {b q : Nat} (h : q < b) : cycleLevel b q = .high := if_pos h

theorem cycleLevel_of_le {b q : Nat} (h : b ≤ q) : cycleLevel b q = .low := if_neg (Nat.not_lt.2 h)

theorem nextLevel_zero (b : Nat) (l : Level) : nextLevel b l 0 = cycleLevel b 0 := by
  by_cases hb : b = 0
  · simp [nextLevel, cycleLevel, hb]
  · simp [nextLevel, cycleLevel, hb, Nat.pos_of_ne_zero hb]

/-- One position on in a cycle. -/
theorem nextLevel_cycleLevel (b q : Nat) : nextLevel b (cycleLevel b q) (q + 1) = cycleLevel b (q + 1) := by
  rw [nextLevel, if_neg q.succ_ne_zero]
  by_cases hb : b = q + 1
  · rw [if_pos hb, cycleLevel_of_le hb.le]
  · have : q < b ↔ q + 1 < b := by omega
    rw [if_neg hb, cycleLevel, cycleLevel, if_congr this rfl rfl]

/-- Without position 0 a channel is driven Low by its own duty position and keeps its level else (R79, R80). -/
theorem foldl_nextLevel_of_zero_notMem (b : Nat) {ps : List Nat} (h : 0 ∉ ps) (l : Level) :
    ps.foldl (nextLevel b) l = if b ∈ ps then .low else l := by
  induction ps generalizing l with
  | nil => rfl
  | cons p ps ih =>
    rw [List.mem_cons, not_or] at h
    obtain ⟨hp, hps⟩ := h
    rw [List.foldl_cons, ih hps, nextLevel, if_neg (Ne.symm hp)]
    by_cases hb : b = p
    · simp [hb]
    · simp [hb]

/-- A cycle in order up to position `q`, from any level. -/
theorem foldl_nextLevel_range (b q : Nat) (l : Level) :
    (List.range (q + 1)).foldl (nextLevel b) l = cycleLevel b q := by
  induction q with
  | zero => exact nextLevel_zero b l
  | succ q ih => rw [List.range_succ, List.foldl_append, ih, List.foldl_cons, List.foldl_nil, nextLevel_cycleLevel]

theorem levelsOver_range'_of_cycleLevel (b q n : Nat) :
    levelsOver b (cycleLevel b q) (List.range' (q + 1) n) = (List.range' (q + 1) n).map (cycleLevel b) := by
  induction n generalizing q with
  | zero => rfl
  | succ n ih => rw [List.range'_succ, levelsOver, nextLevel_cycleLevel, ih, List.map_cons]

theorem levelsOver_range (b n : Nat) (l : Level) :
    levelsOver b l (List.range n) = (List.range n).map (cycleLevel b) := by
  rw [List.range_eq_range']
  cases n with
  | zero => rfl
  | succ n => rw [List.range'_succ, levelsOver, nextLevel_zero, levelsOver_range'_of_cycleLevel, List.map_cons]

theorem length_filter_high_cycleLevel (b n : Nat) :
    (((List.range n).map (cycleLevel b)).filter (· = .high)).length = min b n := by
  induction n with
  | zero => simp
  | succ n ih =>
    rw [List.range_succ, List.map_append, List.filter_append, List.length_append, ih, List.map_singleton]
    by_cases hn : n < b
    · rw [cycleLevel_of_lt hn]
      show min b n + 1 = min b (n + 1)
      omega
    · rw [cycleLevel_of_le (Nat.le_of_not_lt hn)]
      show min b n + 0 = min b (n + 1)
      omega

/-! ### The level over a cycle in order -/

theorem le_99_of_mem_range {n : Nat} (hn : n ≤ 100) : ∀ p ∈ List.range n, p ≤ 99 := fun p hp => by
  rw [List.mem_range] at hp
  omega

/-- R75, R76, R78 as one law of the brightness. -/
theorem pinAt_of_cycle {es : List Event} {s t : State} {g : Group} {q : Nat} (hq : q ≤ 99)
    (hpos : tickPositions es = List.range (q + 1)) (hd : leavesDuty g es = true) (hrun : runEvents es s = some t)
    (c : Channel) : pinAt t g c = cycleLevel (brightness s g c) q := by
  have hlegal : ∀ p ∈ tickPositions es, p ≤ 99 := hpos ▸ le_99_of_mem_range (Nat.succ_le_succ hq)
  obtain ⟨-, hpin, -⟩ := runEvents_channel hrun hd hlegal c
  rw [hpin, hpos, foldl_nextLevel_range]

/-- Settles O14: the cases of the duty in `pinAt_of_cycle`. -/
theorem fullCycleDutyLaw : Obligations.FullCycleDutyLaw := by
  intro es s t g c q hq hpos hd hrun
  have hpin := pinAt_of_cycle hq hpos hd hrun c
  refine ⟨fun v hv _ hlt => ?_, fun v hv _ hle => ?_, fun hv => ?_, fun v hv hge => ?_⟩ <;>
    rw [hpin, brightness, hv]
  · exact cycleLevel_of_lt hlt
  · exact cycleLevel_of_le hle
  · exact cycleLevel_of_le (Nat.zero_le q)
  · exact cycleLevel_of_lt (Nat.lt_of_lt_of_le (Nat.lt_succ_of_le hq) hge)

/-- Settles O16: after the SET_COLOR the rest of the cycle has no position 0, and the next one is a cycle of the new
duty. -/
theorem midCycleDutyChange : Obligations.MidCycleDutyChange := by
  intro s t g color c es p q hpq hq hpos hd hrun
  obtain ⟨u, hu, -, hu_bright, hu_pin⟩ := runEvents_setColor hrun c
  have hmem : ∀ k, k ∈ List.range' (p + 1) (q - p) ↔ p < k ∧ k ≤ q := fun k => by
    rw [List.mem_range'_1]
    omega
  have hlegal : ∀ k ∈ tickPositions es, k ≤ 99 := fun k hk => by
    rw [hpos, hmem] at hk
    omega
  have hzero : 0 ∉ List.range' (p + 1) (q - p) := by simp [hmem]
  obtain ⟨ht_duty, ht_pin, -⟩ := runEvents_channel hu hd hlegal c
  rw [hpos, foldl_nextLevel_of_zero_notMem _ hzero, hu_bright, hu_pin, if_congr (hmem _) rfl rfl] at ht_pin
  rw [ht_pin]
  refine ⟨fun hlow => ?_, fun hhigh hp _ => ?_, fun hhigh hout => ?_, fun es' w k hk hpos' hd' hrun' => ?_⟩
  · rw [hlow, ite_self]
  · rw [hhigh]
    by_cases hlt : q < (color.get c).toNat
    · rw [if_pos hlt, if_neg (by omega)]
    · rw [if_neg hlt, if_pos (by omega)]
  · rw [hhigh, if_neg (by omega)]
  · have ht_bright : brightness t g c = (color.get c).toNat := by rw [brightness, ht_duty, ← brightness, hu_bright]
    rw [pinAt_of_cycle hk hpos' hd' hrun' c, ht_bright, cycleLevel]

/-! ### Runs of TICKs alone -/

theorem runTicks_zero {n : Nat} (h : n ≤ 100) : runTicks 0 n = (List.range n).map tickOf := by
  refine List.map_congr_left fun i hi => ?_
  have hi' : i < Config.cycle := Nat.lt_of_lt_of_le (List.mem_range.1 hi) h
  rw [Nat.zero_add, Nat.mod_eq_of_lt hi']

theorem tickPositions_map_tickOf {ps : List Nat} (h : ∀ p ∈ ps, p ≤ 99) : tickPositions (ps.map tickOf) = ps := by
  induction ps with
  | nil => rfl
  | cons p ps ih =>
    have hp : p ≤ 99 := h p List.mem_cons_self
    rw [List.map_cons, tickOf, tickPositions, ih fun q hq => h q (List.mem_cons_of_mem p hq), BitVec.toNat_ofNat,
      Nat.mod_eq_of_lt (by omega)]

theorem leavesDuty_map_tickOf (g : Group) (ps : List Nat) : leavesDuty g (ps.map tickOf) = true := by
  induction ps with
  | nil => rfl
  | cons p ps ih => exact ih

theorem runEvents_of_applyEvent {e : Event} {s t : State} (h : applyEvent e s = some t) (es : List Event) :
    runEvents (e :: es) s = runEvents es t := by
  simp only [runEvents, h]

/-- A legal TICK runs from every state in Ready, and ends in Ready. -/
theorem applyEvent_tickOf {p : Nat} (hp : p ≤ 99) {s : State} (hs : s.block.phase = .ready) :
    ∃ t, applyEvent (tickOf p) s = some t ∧ t.block.phase = .ready := by
  have hlegal : PosField.Legal (BitVec.ofNat 7 p) := by
    rw [legal_iff, BitVec.toNat_ofNat]
    exact (Nat.mod_le _ _).trans hp
  exact ⟨_, applyEvent_op_of_ready hs (exec_tick_of_legal hlegal hs), hs⟩

/-- TICKs run from every state in Ready, and end in Ready. -/
theorem runEvents_map_tickOf {ps : List Nat} (h : ∀ p ∈ ps, p ≤ 99) {s : State} (hs : s.block.phase = .ready) :
    ∃ t, runEvents (ps.map tickOf) s = some t ∧ t.block.phase = .ready := by
  induction ps generalizing s with
  | nil => exact ⟨s, rfl, hs⟩
  | cons p ps ih =>
    obtain ⟨u, hu, hu_ready⟩ := applyEvent_tickOf (h p List.mem_cons_self) hs
    rw [List.map_cons, runEvents_of_applyEvent hu]
    exact ih (fun q hq => h q (List.mem_cons_of_mem p hq)) hu_ready

/-- Settles O15: TICKs 0 to 99 run from Ready, and the levels on the way are those of the cycle. -/
theorem highCountIsDuty : Obligations.HighCountIsDuty := by
  constructor
  · intro s hs
    rw [fullCycle, runTicks_zero (n := Config.cycle) (Nat.le_refl 100)]
    exact runEvents_map_tickOf (le_99_of_mem_range (Nat.le_refl 100)) hs
  · intro es s t g c hpos hd hrun
    have hlegal : ∀ p ∈ tickPositions es, p ≤ 99 := hpos ▸ le_99_of_mem_range (Nat.le_refl 100)
    obtain ⟨-, -, hlevels⟩ := runEvents_channel hrun hd hlegal c
    rw [hpos, levelsOver_range] at hlevels
    rw [hlevels]
    exact ⟨by rw [List.length_map, List.length_range], length_filter_high_cycleLevel _ 100⟩

/-- Settles O19: a cycle of the brightnesses 0, 0, 0 and 100. -/
theorem sourceSchedulerScenario : Obligations.SourceSchedulerScenario := by
  intro s q hs hq
  have hlegal : ∀ p ∈ List.range (q + 1), p ≤ 99 := le_99_of_mem_range (Nat.succ_le_succ hq)
  rw [runTicks_zero (Nat.succ_le_succ hq)]
  obtain ⟨u, hset, hu⟩ :
      ∃ u, applyEvent (.op (.setColor .group1 ⟨0, 0, 0, 100⟩)) s = some u ∧ u.block.phase = .ready :=
    ⟨_, applyEvent_op_of_ready hs (exec_setColor_ready .group1 _ hs), hs⟩
  obtain ⟨t, ht, -⟩ := runEvents_map_tickOf hlegal hu
  have hrun : runEvents (.op (.setColor .group1 ⟨0, 0, 0, 100⟩) :: (List.range (q + 1)).map tickOf) s = some t := by
    rw [runEvents_of_applyEvent hset, ht]
  have hpin (c : Channel) :
      pinAt t .group1 c = cycleLevel ((⟨0, 0, 0, 100⟩ : Color).get c).toNat q := by
    obtain ⟨u, hu, -, hu_bright, -⟩ := runEvents_setColor hrun c
    rw [pinAt_of_cycle hq (tickPositions_map_tickOf hlegal) (leavesDuty_map_tickOf _ _) hu c, hu_bright]
  refine ⟨t, hrun, ?_, ?_, ?_, ?_⟩ <;> rw [hpin]
  · exact cycleLevel_of_le (Nat.zero_le q)
  · exact cycleLevel_of_le (Nat.zero_le q)
  · exact cycleLevel_of_le (Nat.zero_le q)
  · exact cycleLevel_of_lt (Nat.lt_succ_of_le hq)

end Sys2Proof.Machine
end

section
/-!
PROOF. One FEED or FEED_ERR of the frame decoder (41_frame_decoder.md sections 1 to 3): what each of FEED's cases does to
the buffer, the index, the phase and the message register, and what both operations leave unchanged around them.
-/
namespace Sys2Proof.Machine

/-! ### The buffer and the index under FEED's effects -/

@[simp] theorem memRead_consume (s : State) (i : Fin 17) : memRead (consume s) i = memRead s i := rfl

@[simp] theorem memRead_seekTake (d : Byte) (s : State) (i : Fin 17) :
    memRead (seekTake d s) i = if i = 0 then d else memRead s i := memRead_memWrite s 0 i d

@[simp] theorem memRead_accumulate (d : Byte) (k : Fin 16) (s : State) (i : Fin 17) :
    memRead (accumulate d k s) i = if i = k.castSucc then d else memRead s i := memRead_memWrite s k.castSucc i d

@[simp] theorem memRead_complete (d : Byte) (s : State) (i : Fin 17) :
    memRead (complete d s) i = if i = 16 then d else memRead s i := memRead_memWrite s 16 i d

@[simp] theorem seekTake_idx (d : Byte) (s : State) : (seekTake d s).block.idx = 1 := rfl
@[simp] theorem accumulate_idx (d : Byte) (k : Fin 16) (s : State) : (accumulate d k s).block.idx = k.succ := rfl
@[simp] theorem complete_msg (d : Byte) (s : State) : (complete d s).block.msg = decodeFrame (memWrite 16 d s) := rfl

/-- The Message of a buffer, entry by entry: four bytes a group in red, green, blue, white order (R52). -/
theorem decodeFrame_eq_entries (s : State) :
    decodeFrame s =
      ⟨⟨memRead s 1, memRead s 2, memRead s 3, memRead s 4⟩,
       ⟨memRead s 5, memRead s 6, memRead s 7, memRead s 8⟩,
       ⟨memRead s 9, memRead s 10, memRead s 11, memRead s 12⟩,
       ⟨memRead s 13, memRead s 14, memRead s 15, memRead s 16⟩⟩ := rfl

/-! ### The transmit port by the phase -/

theorem txValid_ready {s : State} (h : s.block.phase = .ready) : txValid s = false := by
  simp only [txValid, h]

theorem txValid_ackWait {s : State} (h : s.block.phase = .ackWait) : txValid s = true := by
  simp only [txValid, h]

theorem txData_ackWait {s : State} (h : s.block.phase = .ackWait) : txData s = some Config.ack := by
  rw [txData, if_pos (txValid_ackWait h)]

/-! ### FEED and FEED_ERR where they are accepted -/

theorem exec_feed_ready {s : State} (d : Byte) (hs : s.block.phase = .ready) :
    exec (.feed d) s = .next (consume (feedByte d s)) := by
  rw [exec_feed, accept_ready hs]

theorem exec_feedErr_ready {s : State} (d : Byte) (hs : s.block.phase = .ready) :
    exec (.feedErr d) s = .next (consume s) := by
  rw [exec_feedErr, accept_ready hs]

/-- The frame of FEED in all its cases: no duty, no pin, no mark and nothing around the block (R85, R90). -/
theorem consume_feedByte_frame (d : Byte) (s : State) :
    SchedulerKept s (consume (feedByte d s)) ∧ MarksKept s (consume (feedByte d s)) ∧
      SurroundingsKept s (consume (feedByte d s)) ∧ (consume (feedByte d s)).offered = none := by
  rw [feedByte_frame]
  exact ⟨⟨fun _ _ => rfl, fun _ _ => rfl⟩, ⟨rfl, rfl⟩, ⟨rfl, rfl, rfl, rfl, rfl⟩, rfl⟩

/-- Consuming an operation touches the operation port alone. -/
theorem consume_frame (s : State) :
    BufferKept s (consume s) ∧ MarksKept s (consume s) ∧ SurroundingsKept s (consume s) :=
  ⟨memRead_consume s, ⟨rfl, rfl⟩, ⟨rfl, rfl, rfl, rfl, rfl⟩⟩

/-- Settles O21: at index 0 the two cases of FEED are `feedByte_discard` and `feedByte_take`. -/
theorem feedWhileSeeking : Obligations.FeedWhileSeeking := by
  intro s d hs hi
  refine ⟨fun hd => ⟨_, exec_feed_ready d hs, ?_⟩, fun hd => ⟨_, exec_feed_ready d hs, ?_⟩⟩
  · obtain ⟨hbuf, hmarks, hsur⟩ := consume_frame s
    rw [feedByte_discard hi hd]
    exact ⟨rfl, hbuf, rfl, hmarks, hsur⟩
  · obtain ⟨hsched, hmarks, hsur, hport⟩ := consume_feedByte_frame d s
    have htake : feedByte d s = seekTake d s := by rw [hd]; exact feedByte_take hi
    rw [htake] at hsched hmarks hsur hport ⊢
    exact ⟨by simp [hd], rfl, fun i h => by simp [h], hs, rfl, hsched, hmarks, hsur, hport⟩

/-- Settles O22: at index 1 to 15 FEED is `accumulate` at the model's own index. -/
theorem feedAccumulates : Obligations.FeedAccumulates := by
  intro s d hs hlo hhi
  obtain ⟨hsched, hmarks, hsur, hport⟩ := consume_feedByte_frame d s
  have hne : s.block.idx ≠ 0 := fun h => by simp [h] at hlo
  have hstore := feedByte_accumulate (d := d) hne (Nat.lt_succ_of_le hhi)
  refine ⟨_, exec_feed_ready d hs, ?_⟩
  rw [hstore] at hsched hmarks hsur hport ⊢
  exact ⟨by simp, rfl, fun i h => by simp [h], hs, rfl, hsched, hmarks, hsur, hport⟩

/-- Settles O23: at index 16 FEED is `complete`, whose Message is read from the buffer after the write. -/
theorem feedCompletesFrame : Obligations.FeedCompletesFrame := by
  intro s d hs hi
  obtain ⟨hsched, hmarks, hsur, hport⟩ := consume_feedByte_frame d s
  refine ⟨_, exec_feed_ready d hs, ?_⟩
  rw [feedByte_complete hi] at hsched hmarks hsur hport ⊢
  rw [consume_block, complete_msg, decodeFrame_eq_entries]
  exact ⟨by simp, fun i h => by simp [h], rfl, rfl, txValid_ackWait rfl, txData_ackWait rfl, by simp,
    hsched, hmarks, hsur, hport⟩

/-- Settles O24: FEED_ERR is accepted with no effect but that it is consumed. -/
theorem feedErrIsDiscarded : Obligations.FeedErrIsDiscarded := by
  intro s d
  refine ⟨fun hs => ?_, fun hs => by rw [exec_feedErr, accept_ackWait hs]⟩
  obtain ⟨hbuf, hmarks, hsur⟩ := consume_frame s
  exact ⟨_, exec_feedErr_ready d hs, rfl, hbuf, txValid_ready hs, rfl, hmarks, hsur⟩

end Sys2Proof.Machine
end

section
/-!
PROOF. The acknowledgment handshake along steps (41_frame_decoder.md section 4): what every step does to the phase, the
fill index, the transmitted bytes and the message port, said once, and the counts along a run.
-/
namespace Sys2Proof.Machine

/-! ### Completing a frame, as a fact about the next step -/

theorem acceptedOp_host_iff {s : State} {ms : List Move} {i : Instr} (h : s.moves = .host :: ms) :
    acceptedOp s = some i ↔ answer (present (beginStep ms s)) = .accepted i := by
  refine ⟨fun ha => ?_, acceptedOp_host h⟩
  simp only [acceptedOp, h] at ha
  split at ha
  · next j hj => rw [hj, Option.some.inj ha]
  · cases ha

theorem completesFrame_iff (s : State) :
    completesFrame s = true ↔ ∃ d, acceptedOp s = some (.feed d) ∧ s.block.idx = 16 := by
  rw [completesFrame]
  split
  · next d hd => simp [hd]
  · next hne => simpa using fun d hd => absurd hd (hne d)

theorem completesFrame_of_moves_ne_host {s : State} (h : s.moves.head? ≠ some .host) : completesFrame s = false := by
  rw [Bool.eq_false_iff, Ne, completesFrame_iff]
  rintro ⟨d, hd, -⟩
  cases hm : s.moves with
  | nil => simp [acceptedOp, hm] at hd
  | cons m ms => cases m <;> simp_all [acceptedOp]

/-- Only FEED touches the index and the phase: in Ready, an instruction that is no completing FEED stays in Ready, and
its index does not become 0. -/
theorem exec_decoder {i : Instr} {s t : State} (hs : s.block.phase = .ready) (h : exec i s = .next t) :
    (∃ d, i = .feed d ∧ s.block.idx = 16 ∧ t.block.phase = .ackWait) ∨
    ((∀ d, i = .feed d → s.block.idx ≠ 16) ∧ t.block.phase = .ready ∧
      (t.block.idx = s.block.idx ∨ t.block.idx ≠ 0)) := by
  cases i with
  | tick p =>
    rw [exec_tick, accept_ready hs] at h
    cases h
    refine .inr ⟨fun _ h => (nomatch h), ?_⟩
    split <;> exact ⟨hs, .inl rfl⟩
  | feedErr d =>
    rw [exec_feedErr_ready d hs] at h
    cases h
    exact .inr ⟨fun _ h => (nomatch h), hs, .inl rfl⟩
  | setColor g color =>
    rw [exec_setColor_ready g color hs] at h
    cases h
    exact .inr ⟨fun _ h => (nomatch h), hs, .inl rfl⟩
  | feed d =>
    rw [exec_feed_ready d hs] at h
    cases h
    obtain ⟨hi, -, he⟩ | ⟨hi, -, he⟩ | ⟨-, hlt, he⟩ | ⟨hi, he⟩ := feedByte_cases d s <;> rw [he]
    · exact .inr ⟨fun _ _ => by rw [hi]; decide, hs, .inl rfl⟩
    · exact .inr ⟨fun _ _ => by rw [hi]; decide, hs, .inr (by simp)⟩
    · exact .inr ⟨fun _ _ h16 => by rw [h16] at hlt; exact absurd hlt (by decide), hs, .inr (by simp)⟩
    · exact .inl ⟨d, rfl, hi, rfl⟩

/-- What every step but a completing FEED, a TX_ACCEPT in AckWait and a RESET does to the handshake
(`step_handshake`): nothing, and the index does not become 0 (R99). -/
structure HandshakeKept (s t : State) : Prop where
  phase : t.block.phase = s.block.phase
  idx : t.block.idx = s.block.idx ∨ t.block.idx ≠ 0
  sent : t.sent = s.sent
  msgOut : t.msgOut = none

/-- What the host's turn does to the handshake, by the block's answer. -/
theorem hostTurn_handshake {s t : State} (h : hostTurn s = .next t) (hmsg : s.msgOut = none) :
    (∃ d, answer s = .accepted (.feed d) ∧ s.block.idx = 16 ∧ t.block.phase = .ackWait ∧ t.sent = s.sent ∧
      t.msgOut = none) ∨
    ((∀ d, answer s = .accepted (.feed d) → s.block.idx ≠ 16) ∧ HandshakeKept s t) := by
  cases ha : answer s with
  | accepted i =>
    have hs := answer_accepted_phase ha
    simp only [hostTurn, ha] at h
    obtain ⟨hout, hsent, -⟩ := exec_frame h
    rw [hmsg] at hout
    obtain ⟨d, rfl, hi, hp⟩ | ⟨hne, hp, hidx⟩ := exec_decoder hs h
    · exact .inl ⟨d, rfl, hi, hp, hsent, hout⟩
    · exact .inr ⟨fun d hd => hne d (Answer.accepted.inj hd), hp.trans hs.symm, hidx, hsent, hout⟩
  | _ =>
    simp only [hostTurn, ha] at h
    cases h
    exact .inr ⟨fun _ hd => (nomatch hd), rfl, .inl rfl, rfl, hmsg⟩

/-- All that a step can do to the handshake: a completing FEED enters AckWait (R89), a TX_ACCEPT in AckWait leaves it and
delivers (R94), a RESET ends in Ready (R125), and every other step keeps it. -/
theorem step_handshake {s t : State} (h : step s = .next t) :
    (completesFrame s = true ∧ s.block.phase = .ready ∧ t.block.phase = .ackWait ∧ t.sent = s.sent ∧
      t.msgOut = none) ∨
    (completesFrame s = false ∧
      ((s.moves.head? = some .txAccept ∧ s.block.phase = .ackWait ∧ t.block.phase = .ready ∧
          t.block.idx = s.block.idx ∧ t.sent = s.sent ++ [Config.ack] ∧ t.msgOut = some s.block.msg) ∨
        (takesReset s = true ∧ t.block.phase = .ready ∧ t.msgOut = none) ∨
        HandshakeKept s t)) := by
  obtain ⟨hm, rfl⟩ | ⟨ms, hm, ht⟩ | ⟨ms, hm, rfl⟩ | ⟨a, ms, hm, rfl⟩ := step_cases h
  · exact .inr ⟨completesFrame_of_moves_ne_host (by simp [hm]), .inr (.inr ⟨rfl, .inl rfl, rfl, rfl⟩)⟩
  · obtain ⟨d, ha, hi, hp, hsent, hout⟩ | ⟨hne, hkept⟩ := hostTurn_handshake ht (by simp)
    · have hs := answer_accepted_phase ha
      simp only [present_block, beginStep_block, present_sent, beginStep_sent] at hi hs hsent
      exact .inl ⟨(completesFrame_iff s).2 ⟨d, acceptedOp_host hm ha, hi⟩, hs, hp, hsent, hout⟩
    · refine .inr ⟨?_, .inr (.inr ?_)⟩
      · rw [Bool.eq_false_iff, Ne, completesFrame_iff]
        rintro ⟨d, hd, hi⟩
        exact hne d ((acceptedOp_host_iff hm).1 hd) (by simpa using hi)
      · obtain ⟨hp, hidx, hsent, hout⟩ := hkept
        simp only [present_block, beginStep_block, present_sent, beginStep_sent] at hp hidx hsent
        exact ⟨hp, hidx, hsent, hout⟩
  · have hc := completesFrame_of_moves_ne_host (s := s) (by simp [hm])
    cases hp : s.block.phase with
    | ready =>
      rw [txAccept_ready (s := beginStep ms s) hp]
      exact .inr ⟨hc, .inr (.inr ⟨rfl, .inl rfl, rfl, rfl⟩)⟩
    | ackWait =>
      rw [txAccept_ackWait (s := beginStep ms s) hp]
      exact .inr ⟨hc, .inl ⟨by rw [hm]; rfl, rfl, rfl, rfl, rfl, rfl⟩⟩
  · exact .inr ⟨completesFrame_of_moves_ne_host (by simp [hm]),
      .inr (.inl ⟨by simp only [takesReset, hm], rfl, rfl⟩)⟩

/-- Settles O42: of the handshake's four kinds of step, only a completing FEED and RESET set a non-zero index to 0. -/
theorem indexReturnsToZeroOnlyBy : Obligations.IndexReturnsToZeroOnlyBy := by
  intro s t h hne hzero
  obtain ⟨hc, -⟩ | ⟨-, ⟨-, -, -, hidx, -⟩ | ⟨hr, -⟩ | hkept⟩ := step_handshake h
  · exact .inl hc
  · exact absurd (hidx.symm.trans hzero) hne
  · exact .inr hr
  · exact hkept.idx.elim (fun hidx => absurd (hidx.symm.trans hzero) hne) (absurd hzero)

/-- Settles O29: a step with TX_ACCEPT next is `txAccept` in AckWait. -/
theorem txAcceptDeliversMessage : Obligations.TxAcceptDeliversMessage := by
  intro s ms hm hp
  refine ⟨_, step_txAccept hm, ?_⟩
  rw [txAccept_ackWait (s := beginStep ms s) hp]
  exact ⟨rfl, txValid_ready rfl, rfl, rfl, rfl, fun _ => rfl, rfl, ⟨fun _ _ => rfl, fun _ _ => rfl⟩, ⟨rfl, rfl⟩,
    rfl, rfl, rfl, rfl⟩

/-! ### The hold in AckWait -/

theorem exec_ackWait (i : Instr) {s : State} (hp : s.block.phase = .ackWait) : exec i s = .next s := by
  obtain ⟨f, hf⟩ := exec_is_accept i
  rw [hf, accept_ackWait hp]

theorem hostTurn_ackWait {s : State} (hp : s.block.phase = .ackWait) : hostTurn s = .next s := by
  cases ho : s.offered with
  | none => simp only [hostTurn, answer_nothing ho]
  | some w => simp only [hostTurn, answer_held ho hp]

/-- What the host presents does not depend on the schedule or the message port. -/
theorem present_beginStep_offered (ms : List Move) (s : State) :
    (present (beginStep ms s)).offered = (present s).offered := by
  simp only [present, beginStep]
  split <;> rfl

/-- Settles O31: no instruction and no host's turn does anything in AckWait, and of the handshake's four kinds of step
only TX_ACCEPT and RESET lead from AckWait to Ready. -/
theorem holdDuringAckWait : Obligations.HoldDuringAckWait := by
  intro s hp
  refine ⟨fun i => exec_ackWait i hp, fun ms w i hm ho _ => ?_, fun t h ht => ?_⟩
  · refine ⟨present (beginStep ms s), ?_, ?_, ?_, ?_, ?_⟩
    · rw [step_host hm, hostTurn_ackWait (by simpa using hp)]
    · rw [present_block, beginStep_block]
    · rw [present_beginStep_offered, ho]
    · rw [present_sent, beginStep_sent]
    · rw [present_refusals, beginStep_refusals]
  · obtain ⟨-, hs, -⟩ | ⟨-, ⟨htx, -⟩ | ⟨hr, -⟩ | hkept⟩ := step_handshake h
    · rw [hp] at hs; cases hs
    · exact .inl htx
    · exact .inr hr
    · rw [hkept.phase, hp] at ht; cases ht

/-! ### The counts of R96 along a run -/

theorem txValid_congr {s t : State} (h : t.block.phase = s.block.phase) : txValid t = txValid s := by
  simp only [txValid, h]

/-- A step begins to offer a byte exactly when it completes a frame. -/
theorem step_offers_iff_completesFrame {s t : State} (h : step s = .next t) :
    (txValid s = false ∧ txValid t = true) ↔ completesFrame s = true := by
  obtain ⟨hc, hs, ht, -⟩ | ⟨hc, ⟨-, -, ht, -⟩ | ⟨-, ht, -⟩ | hkept⟩ := step_handshake h
  · simp [hc, txValid_ready hs, txValid_ackWait ht]
  · simp [hc, txValid_ready ht]
  · simp [hc, txValid_ready ht]
  · simp [hc, txValid_congr hkept.phase]

/-- The acknowledgments a state accounts for: those transmitted, and the one on offer. -/
def acksMade (s : State) : Nat := s.sent.length + (if txValid s = true then 1 else 0)

/-- A step that is no RESET loses no acknowledgment, and makes one exactly when it completes a frame. -/
theorem step_acksMade {s t : State} (h : step s = .next t) (hr : takesReset s = false) :
    acksMade t = acksMade s + (if completesFrame s = true then 1 else 0) := by
  obtain ⟨hc, hs, ht, hsent, -⟩ | ⟨hc, ⟨-, hs, ht, -, hsent, -⟩ | ⟨hr', -⟩ | hkept⟩ := step_handshake h
  · simp [acksMade, hc, hsent, txValid_ready hs, txValid_ackWait ht]
  · simp [acksMade, hc, hsent, txValid_ready ht, txValid_ackWait hs]
  · rw [hr] at hr'; cases hr'
  · simp [acksMade, hc, hkept.sent, txValid_congr hkept.phase]

/-- Settles O35: both counts step by step. -/
theorem ackCountEqualsCompletedFrames : Obligations.AckCountEqualsCompletedFrames := by
  intro r hrun n
  constructor
  · induction n with
    | zero => rfl
    | succ n ih => rw [countOffers, countSteps, ih, if_congr (step_offers_iff_completesFrame (hrun n)) rfl rfl]
  · intro hr
    have hacks : acksMade (r n) = acksMade (r 0) + countSteps completesFrame r n := by
      induction n with
      | zero => rfl
      | succ n ih =>
        rw [step_acksMade (hrun n) (hr n (Nat.lt_succ_self n)), ih fun k hk => hr k (Nat.lt_succ_of_lt hk), countSteps,
          Nat.add_assoc]
    exact hacks

end Sys2Proof.Machine
end

section
/-!
PROOF. Runs of FEEDs (41_frame_decoder.md section 5): garbage is discarded, an aligned frame fills the buffer entry by
entry, and its last byte completes the frame's own Message.
-/
namespace Sys2Proof.Machine

/-! ### FEED and TX_ACCEPT as events -/

theorem applyEvent_feed (d : Byte) {s : State} (hs : s.block.phase = .ready) :
    applyEvent (.op (.feed d)) s = some (consume (feedByte d { s with msgOut := none })) :=
  applyEvent_op_of_ready hs (exec_feed_ready d hs)

theorem applyEvent_txAccept_of_ackWait {s : State} (hp : s.block.phase = .ackWait) :
    applyEvent .txAccept s = some (txAccept { s with msgOut := none }) := by
  simp [applyEvent, eventEffect, Event.enabled, hp]

theorem feeds_append (bs cs : List Byte) : feeds (bs ++ cs) = feeds bs ++ feeds cs := List.map_append

theorem runEvents_append_of {es : List Event} {s t : State} (h : runEvents es s = some t) (es' : List Event) :
    runEvents (es ++ es') s = runEvents es' t := by
  rw [runEvents_append, h, Option.bind_some]

/-- FEEDs transmit nothing and present no Message. -/
theorem runEvents_feeds_ports {bs : List Byte} {s t : State} (h : runEvents (feeds bs) s = some t) :
    t.sent = s.sent ∧ (bs ≠ [] → t.msgOut = none) := by
  induction bs generalizing s with
  | nil =>
    cases h
    exact ⟨rfl, fun hne => absurd rfl hne⟩
  | cons b bs ih =>
    obtain ⟨u, hu, hrest⟩ := runEvents_cons h
    obtain ⟨-, hexec⟩ := applyEvent_op hu
    obtain ⟨hout, hsent, -⟩ := exec_frame hexec
    obtain ⟨ih_sent, ih_out⟩ := ih hrest
    refine ⟨ih_sent.trans hsent, fun _ => ?_⟩
    cases bs with
    | nil =>
      cases hrest
      exact hout
    | cons c cs => exact ih_out (List.cons_ne_nil c cs)

/-! ### Garbage -/

/-- Seeking: in Ready at index 0. -/
structure Seeking (s : State) : Prop where
  phase : s.block.phase = .ready
  idx : s.block.idx = 0

/-- Bytes other than the sentinel leave the decoder seeking (R86). -/
theorem Seeking.runEvents_garbage {bs : List Byte} {s : State} (hs : Seeking s)
    (hb : ∀ b ∈ bs, b ≠ Config.sentinel) : ∃ t, runEvents (feeds bs) s = some t ∧ Seeking t := by
  induction bs generalizing s with
  | nil => exact ⟨s, rfl, hs⟩
  | cons b bs ih =>
    have hstep := applyEvent_feed b hs.phase
    rw [feedByte_discard (s := { s with msgOut := none }) hs.idx (hb b List.mem_cons_self)] at hstep
    rw [feeds, List.map_cons, runEvents_of_applyEvent hstep]
    exact ih ⟨hs.phase, hs.idx⟩ fun c hc => hb c (List.mem_cons_of_mem b hc)

/-! ### A frame in progress -/

/-- The first buffer entries hold the bytes `bs`, in order. -/
def Stores (bs : List Byte) (s : State) : Prop :=
  ∀ (i : Fin 17) (h : i.val < bs.length), memRead s i = bs[i.val]

theorem Stores.memWrite_append {bs : List Byte} {s : State} (hs : Stores bs s) {k : Fin 17} (hk : k.val = bs.length)
    (d : Byte) : Stores (bs ++ [d]) (memWrite k d s) := by
  intro i hi
  rw [memRead_memWrite]
  split
  · next hik => simp [hik, hk]
  · next hik =>
    have hlt : i.val < bs.length := by
      have hne : i.val ≠ k.val := fun h => hik (Fin.ext h)
      rw [List.length_append, List.length_singleton] at hi
      omega
    rw [List.getElem_append_left hlt, hs i hlt]

/-- A frame in progress: in Ready, the bytes `bs` stored, the index after the last of them (R103). -/
structure Accumulated (bs : List Byte) (s : State) : Prop where
  phase : s.block.phase = .ready
  idx : s.block.idx.val = bs.length
  stored : Stores bs s

/-- The sentinel at index 0 starts a frame (R87). -/
theorem Seeking.applyEvent_sentinel {s : State} (hs : Seeking s) :
    ∃ t, applyEvent (.op (.feed Config.sentinel)) s = some t ∧ Accumulated [Config.sentinel] t := by
  refine ⟨_, applyEvent_feed _ hs.phase, ?_⟩
  rw [feedByte_take (s := { s with msgOut := none }) hs.idx]
  have hnone : Stores [] { s with msgOut := none } := fun i h => absurd h (Nat.not_lt_zero _)
  exact ⟨hs.phase, rfl, hnone.memWrite_append (k := 0) rfl Config.sentinel⟩

/-- A byte at index 1 to 15 is stored behind the others, whatever it is (R88). -/
theorem Accumulated.applyEvent_feed {bs : List Byte} {s : State} (hs : Accumulated bs s) (hpos : 0 < bs.length)
    (hlen : bs.length < 16) (d : Byte) :
    ∃ t, applyEvent (.op (.feed d)) s = some t ∧ Accumulated (bs ++ [d]) t := by
  refine ⟨_, Machine.applyEvent_feed d hs.phase, ?_⟩
  have hne : s.block.idx ≠ 0 := fun h => by
    have hlen0 := hs.idx
    rw [h, Fin.val_zero] at hlen0
    omega
  have hlt : s.block.idx.val < 16 := by rw [hs.idx]; exact hlen
  rw [feedByte_accumulate (s := { s with msgOut := none }) hne hlt]
  refine ⟨hs.phase, ?_, Stores.memWrite_append (s := { s with msgOut := none }) hs.stored hs.idx d⟩
  rw [List.length_append, List.length_singleton, ← hs.idx]
  rfl

/-- The byte at index 16 completes the frame (R89). -/
theorem Accumulated.applyEvent_feed_last {bs : List Byte} {s : State} (hs : Accumulated bs s) (hlen : bs.length = 16)
    (d : Byte) :
    ∃ t, applyEvent (.op (.feed d)) s = some t ∧ t.block.phase = .ackWait ∧ t.block.idx = 0 ∧
      t.block.msg = decodeFrame t ∧ Stores (bs ++ [d]) t := by
  refine ⟨_, Machine.applyEvent_feed d hs.phase, ?_⟩
  have hi : s.block.idx = 16 := Fin.ext (hs.idx.trans hlen)
  rw [feedByte_complete (s := { s with msgOut := none }) hi]
  exact ⟨rfl, rfl, decodeFrame_congr rfl rfl,
    Stores.memWrite_append (s := { s with msgOut := none }) hs.stored (k := 16) hlen.symm d⟩

theorem Accumulated.runEvents_feeds {bs cs : List Byte} {s : State} (hs : Accumulated bs s) (hpos : 0 < bs.length)
    (hlen : bs.length + cs.length ≤ 16) :
    ∃ t, runEvents (feeds cs) s = some t ∧ Accumulated (bs ++ cs) t := by
  induction cs generalizing bs s with
  | nil => exact ⟨s, rfl, by rwa [List.append_nil]⟩
  | cons c cs ih =>
    rw [List.length_cons] at hlen
    obtain ⟨u, hu, hacc⟩ := hs.applyEvent_feed hpos (by omega) c
    rw [feeds, List.map_cons, runEvents_of_applyEvent hu, List.append_cons bs c cs]
    exact ih hacc (by simp) (by rw [List.length_append, List.length_singleton]; omega)

/-- Sentinel and up to 15 payload bytes are a frame in progress. -/
theorem Seeking.runEvents_partial {cs : List Byte} {s : State} (hs : Seeking s) (hlen : cs.length ≤ 15) :
    ∃ t, runEvents (feeds (Config.sentinel :: cs)) s = some t ∧ Accumulated (Config.sentinel :: cs) t := by
  obtain ⟨u, hu, hacc⟩ := hs.applyEvent_sentinel
  rw [feeds, List.map_cons, runEvents_of_applyEvent hu]
  exact hacc.runEvents_feeds Nat.one_pos (by rw [List.length_singleton]; omega)

/-! ### A whole frame -/

theorem length_payloadBytes (m : Message) : (payloadBytes m).length = 16 := rfl

/-- A payload's wire order is the buffer's order of channels (R37, R40). -/
theorem decodeFrame_of_stores {m : Message} {s : State} (h : Stores (Config.sentinel :: payloadBytes m) s) :
    decodeFrame s = m := by
  refine Groups.ext_get fun g => Channels.ext_get fun c => ?_
  rw [decodeFrame_get, h (payloadEntry g c) (payloadEntry g c).isLt]
  cases g <;> cases c <;> rfl

/-- From index 0 a frame completes and its own Message is held (R101). -/
theorem Seeking.runEvents_frame {s : State} (hs : Seeking s) (m : Message) :
    ∃ t, runEvents (frame m) s = some t ∧ t.block.phase = .ackWait ∧ t.block.idx = 0 ∧ t.block.msg = m := by
  have hsplit : Config.sentinel :: payloadBytes m =
      (Config.sentinel :: (payloadBytes m).take 15) ++ [m.group4.white] := rfl
  obtain ⟨u, hu, hacc⟩ := hs.runEvents_partial (cs := (payloadBytes m).take 15) (by simp [length_payloadBytes])
  obtain ⟨t, ht, hphase, hidx, hmsg, hstored⟩ := hacc.applyEvent_feed_last rfl m.group4.white
  refine ⟨t, ?_, hphase, hidx, hmsg.trans (decodeFrame_of_stores (hsplit ▸ hstored))⟩
  rw [frame, hsplit, feeds_append, runEvents_append_of hu]
  exact runEvents_of_applyEvent ht []

/-- Every proper part of garbage and a frame runs, and ends in Ready: it ends within the garbage, or within the frame's
first 16 bytes. -/
theorem Seeking.runEvents_take {garbage : List Byte} {s : State} (hs : Seeking s)
    (hb : ∀ b ∈ garbage, b ≠ Config.sentinel) (m : Message) {n : Nat} (hn : n < garbage.length + 17) :
    ∃ t, runEvents (feeds ((garbage ++ Config.sentinel :: payloadBytes m).take n)) s = some t ∧
      t.block.phase = .ready := by
  by_cases hg : n ≤ garbage.length
  · rw [List.take_append_of_le_length hg]
    obtain ⟨t, ht, hseek⟩ := hs.runEvents_garbage fun b h => hb b (List.mem_of_mem_take h)
    exact ⟨t, ht, hseek.phase⟩
  · obtain ⟨k, rfl⟩ : ∃ k, n = garbage.length + (k + 1) := ⟨n - garbage.length - 1, by omega⟩
    obtain ⟨u, hu, hseek⟩ := hs.runEvents_garbage hb
    obtain ⟨t, ht, hacc⟩ := hseek.runEvents_partial (cs := (payloadBytes m).take k)
      (by rw [List.length_take]; omega)
    rw [List.take_length_add_append, List.take_succ_cons, feeds_append, runEvents_append_of hu]
    exact ⟨t, ht, hacc.phase⟩

/-- Settles O26: the garbage keeps the decoder seeking, the frame then completes its own Message, and the TX_ACCEPT that
follows is `txAccept` in AckWait. -/
theorem resyncRobustness : Obligations.ResyncRobustness := by
  intro s garbage m hphase hidx hb
  have hs : Seeking s := ⟨hphase, hidx⟩
  have hevents : feeds garbage ++ frame m = feeds (garbage ++ Config.sentinel :: payloadBytes m) :=
    (feeds_append _ _).symm
  obtain ⟨u, hu, hseek⟩ := hs.runEvents_garbage hb
  obtain ⟨t, ht, ht_phase, ht_idx, ht_msg⟩ := hseek.runEvents_frame m
  have hrun : runEvents (feeds garbage ++ frame m) s = some t := by rw [runEvents_append_of hu, ht]
  obtain ⟨ht_sent, ht_out⟩ := runEvents_feeds_ports (hevents ▸ hrun)
  refine ⟨fun n hn => ?_, ⟨t, hrun, ht_phase, ht_msg, ht_idx, ht_out (by simp)⟩, ?_⟩
  · obtain ⟨v, hv, hv_phase⟩ := hs.runEvents_take hb m hn
    obtain ⟨-, hv_out⟩ := runEvents_feeds_ports hv
    refine ⟨v, ?_, hv_phase, fun hpos => hv_out (by simp [Nat.ne_of_gt hpos])⟩
    rw [hevents, feeds, ← List.map_take]
    exact hv
  · have haccept := applyEvent_txAccept_of_ackWait ht_phase
    rw [txAccept_ackWait (s := { t with msgOut := none }) ht_phase] at haccept
    refine ⟨_, (runEvents_append_of hrun _).trans (runEvents_of_applyEvent haccept []), rfl, ?_, ?_⟩
    · exact congrArg some ht_msg
    · exact congrArg (· ++ [Config.ack]) ht_sent

end Sys2Proof.Machine
end

section
/-!
PROOF. Refused words (60_exceptions.md R105 to R109): which words the decoder refuses, read off the word as numbers;
what the step that refuses one leaves; what every step does to the refusal mark and record; and that every step answers.
-/
namespace Sys2Proof.Machine

/-! ### The decoder over the word as a number (R107) -/

/-- The opcode `w[39:36]` as a number (30_encoding.md R57). -/
def opcodeNumber (w : CmdWord) : Nat := w.toNat / 2 ^ 36

/-- An opcode that is none of the four assigned ones. -/
def OpcodeIsReserved (w : CmdWord) : Prop := opcodeNumber w = 0 ∨ 5 ≤ opcodeNumber w

/-- An assigned opcode with a 1 in its format's must-be-zero field (30_encoding.md R58 to R61). -/
def ReservedBitIsSet (w : CmdWord) : Prop :=
  (opcodeNumber w = 1 ∧ w.toNat / 2 ^ 7 % 2 ^ 29 ≠ 0) ∨
  ((opcodeNumber w = 2 ∨ opcodeNumber w = 3) ∧ w.toNat / 2 ^ 8 % 2 ^ 28 ≠ 0) ∨
  (opcodeNumber w = 4 ∧ w.toNat / 2 ^ 34 % 2 ^ 2 ≠ 0)

/-- A TICK with no reserved bit set and a position of 100 or more (30_encoding.md R62). -/
def PositionIsTooLarge (w : CmdWord) : Prop :=
  opcodeNumber w = 1 ∧ w.toNat / 2 ^ 7 % 2 ^ 29 = 0 ∧ 100 ≤ w.toNat % 2 ^ 7

/-- An assigned opcode with its must-be-zero field 0, and for TICK a position below 100 (30_encoding.md R58 to R62). -/
def WordIsLegal (w : CmdWord) : Prop :=
  (opcodeNumber w = 1 ∧ w.toNat / 2 ^ 7 % 2 ^ 29 = 0 ∧ w.toNat % 2 ^ 7 < 100) ∨
  ((opcodeNumber w = 2 ∨ opcodeNumber w = 3) ∧ w.toNat / 2 ^ 8 % 2 ^ 28 = 0) ∨
  (opcodeNumber w = 4 ∧ w.toNat / 2 ^ 34 % 2 ^ 2 = 0)

/-- The four conditions exclude each other, so R107's order of the reasons is already in them. -/
theorem word_conditions_exclusive (w : CmdWord) :
    (OpcodeIsReserved w → ¬ ReservedBitIsSet w ∧ ¬ PositionIsTooLarge w) ∧
    (ReservedBitIsSet w → ¬ PositionIsTooLarge w) ∧
    (WordIsLegal w → ¬ OpcodeIsReserved w ∧ ¬ ReservedBitIsSet w ∧ ¬ PositionIsTooLarge w) := by
  unfold OpcodeIsReserved ReservedBitIsSet PositionIsTooLarge WordIsLegal
  omega

/-- A field of a word as a number. -/
theorem toNat_field (w : CmdWord) (k n : Nat) : (w.extractLsb' k n).toNat = w.toNat / 2 ^ k % 2 ^ n := by
  rw [BitVec.extractLsb'_toNat, Nat.shiftRight_eq_div_pow]

theorem field_eq_zero_iff (w : CmdWord) (k n : Nat) : w.extractLsb' k n = 0 ↔ w.toNat / 2 ^ k % 2 ^ n = 0 := by
  rw [← BitVec.toNat_inj, toNat_field]
  rfl

theorem opcodeField_eq_iff (w : CmdWord) (k : BitVec 4) : opcodeField w = k ↔ opcodeNumber w = k.toNat := by
  have hw := w.isLt
  rw [← BitVec.toNat_inj, opcodeField, toNat_field, opcodeNumber, Nat.mod_eq_of_lt (by omega)]

/-- The decoder's dispatch on the opcode as a number. -/
theorem decode_eq (w : CmdWord) :
    decode w =
      if opcodeNumber w = 1 then decodeTick w
      else if opcodeNumber w = 2 then decodeFeed w
      else if opcodeNumber w = 3 then decodeFeedErr w
      else if opcodeNumber w = 4 then decodeSetColor w
      else .error (.reservedOpcode w) := by
  simp only [decode, opcodeField_eq_iff]
  rfl

theorem decodeTick_cases (w : CmdWord) :
    (w.toNat / 2 ^ 7 % 2 ^ 29 ≠ 0 ∧ decodeTick w = .error (.reservedBits w)) ∨
    (w.toNat / 2 ^ 7 % 2 ^ 29 = 0 ∧ 100 ≤ w.toNat % 2 ^ 7 ∧ decodeTick w = .error (.positionOutOfRange w)) ∨
    (w.toNat / 2 ^ 7 % 2 ^ 29 = 0 ∧ w.toNat % 2 ^ 7 < 100 ∧ ∃ i, decodeTick w = .ok i) := by
  have hpos : (w.extractLsb' 0 7).toNat = w.toNat % 2 ^ 7 := by rw [toNat_field, pow_zero, Nat.div_one]
  rw [decodeTick]
  split
  · next hbits =>
    rw [Ne, field_eq_zero_iff] at hbits
    exact .inl ⟨hbits, rfl⟩
  · next hbits =>
    rw [not_not, field_eq_zero_iff] at hbits
    split
    · next hlt =>
      rw [hpos] at hlt
      exact .inr (.inr ⟨hbits, hlt, _, rfl⟩)
    · next hlt =>
      rw [hpos, Nat.not_lt] at hlt
      exact .inr (.inl ⟨hbits, hlt, rfl⟩)

/-- FEED, FEED_ERR and SET_COLOR have one must-be-zero field and no other check. -/
theorem reservedField_cases (w : CmdWord) (k n : Nat) (i : Instr) {d : Except WordRefusal Instr}
    (hd : d = if w.extractLsb' k n ≠ 0 then .error (.reservedBits w) else .ok i) :
    (w.toNat / 2 ^ k % 2 ^ n ≠ 0 ∧ d = .error (.reservedBits w)) ∨
    (w.toNat / 2 ^ k % 2 ^ n = 0 ∧ ∃ i, d = .ok i) := by
  rw [hd]
  split
  · next hbits =>
    rw [Ne, field_eq_zero_iff] at hbits
    exact .inl ⟨hbits, rfl⟩
  · next hbits =>
    rw [not_not, field_eq_zero_iff] at hbits
    exact .inr ⟨hbits, i, rfl⟩

/-- All that the decoder can answer, and the condition on the word's numbers under each reason. -/
theorem decode_cases (w : CmdWord) :
    (OpcodeIsReserved w ∧ decode w = .error (.reservedOpcode w)) ∨
    (ReservedBitIsSet w ∧ decode w = .error (.reservedBits w)) ∨
    (PositionIsTooLarge w ∧ decode w = .error (.positionOutOfRange w)) ∨
    (WordIsLegal w ∧ ∃ i, decode w = .ok i) := by
  rw [decode_eq]
  split
  · next hop =>
    obtain ⟨hbits, h⟩ | ⟨hbits, hpos, h⟩ | ⟨hbits, hpos, h⟩ := decodeTick_cases w
    · exact .inr (.inl ⟨.inl ⟨hop, hbits⟩, h⟩)
    · exact .inr (.inr (.inl ⟨⟨hop, hbits, hpos⟩, h⟩))
    · exact .inr (.inr (.inr ⟨.inl ⟨hop, hbits, hpos⟩, h⟩))
  split
  · next hop =>
    obtain ⟨hbits, h⟩ | ⟨hbits, h⟩ := reservedField_cases w 8 28 _ (d := decodeFeed w) rfl
    · exact .inr (.inl ⟨.inr (.inl ⟨.inl hop, hbits⟩), h⟩)
    · exact .inr (.inr (.inr ⟨.inr (.inl ⟨.inl hop, hbits⟩), h⟩))
  split
  · next hop =>
    obtain ⟨hbits, h⟩ | ⟨hbits, h⟩ := reservedField_cases w 8 28 _ (d := decodeFeedErr w) rfl
    · exact .inr (.inl ⟨.inr (.inl ⟨.inr hop, hbits⟩), h⟩)
    · exact .inr (.inr (.inr ⟨.inr (.inl ⟨.inr hop, hbits⟩), h⟩))
  split
  · next hop =>
    obtain ⟨hbits, h⟩ | ⟨hbits, h⟩ := reservedField_cases w 34 2 _ (d := decodeSetColor w) rfl
    · exact .inr (.inl ⟨.inr (.inr ⟨hop, hbits⟩), h⟩)
    · exact .inr (.inr (.inr ⟨.inr (.inr ⟨hop, hbits⟩), h⟩))
  · exact .inl ⟨by unfold OpcodeIsReserved; omega, rfl⟩

/-- The decoder gives each reason exactly under its condition, and no fourth one. -/
theorem decode_error_iff (w : CmdWord) :
    (decode w = .error (.reservedOpcode w) ↔ OpcodeIsReserved w) ∧
    (decode w = .error (.reservedBits w) ↔ ReservedBitIsSet w) ∧
    (decode w = .error (.positionOutOfRange w) ↔ PositionIsTooLarge w) ∧
    ∀ r, decode w = .error r → r = .reservedOpcode w ∨ r = .reservedBits w ∨ r = .positionOutOfRange w := by
  obtain ⟨hopcode, hbits, hlegal⟩ := word_conditions_exclusive w
  obtain ⟨hc, h⟩ | ⟨hc, h⟩ | ⟨hc, h⟩ | ⟨hc, i, h⟩ := decode_cases w
  · simp [h, hc, hopcode hc]
  · simp [h, hc, hbits hc, mt hopcode fun hn => hn.1 hc]
  · simp [h, hc, mt hbits (not_not.2 hc), mt hopcode fun hn => hn.2 hc]
  · simp [h, hlegal hc]

/-! ### The step that refuses a word (R107, R108) -/

/-- The host presents the same word whether or not the step has begun. -/
theorem present_beginStep (ms : List Move) (s : State) : present (beginStep ms s) = beginStep ms (present s) := by
  cases ho : s.offered with
  | some w => rw [present_of_offered ho, present_of_offered (s := beginStep ms s) ho]
  | none =>
    cases hs : s.stream with
    | nil => rw [present_of_silence ho hs, present_of_silence (s := beginStep ms s) ho hs]
    | cons w ws =>
      rw [present_of_stream ho hs, present_of_stream (s := beginStep ms s) ho hs]
      rfl

theorem step_refuses {s : State} {ms : List Move} {w : CmdWord} {r : WordRefusal} (hm : s.moves = .host :: ms)
    (hp : s.block.phase = .ready) (ho : (present s).offered = some w) (hd : decode w = .error r) :
    step s = .next (refuseWord r (beginStep ms (present s))) := by
  have ha : answer (beginStep ms (present s)) = .refused r :=
    answer_refused (by rw [beginStep_offered, ho]) (by rw [beginStep_block, present_block, hp]) hd
  rw [step_host hm, present_beginStep, hostTurn, ha]

/-- Settles O6: the refusing step is `refuseWord`, which writes the mark, the record and the port only. -/
theorem refusedWordChangesNoState : Obligations.RefusedWordChangesNoState := by
  intro s ms w r hm hp ho hd
  have hbuf : BufferKept s (refuseWord r (beginStep ms (present s))) :=
    fun i => memRead_congr (by simp) (by simp) i
  refine ⟨_, step_refuses hm hp ho hd, ⟨?_, ?_⟩, ⟨?_, hbuf, ?_, ?_⟩, txValid_ready ?_, ?_⟩ <;>
    simp [dutyAt, pinAt, hp]

/-- Settles O3: the three conditions of `decode_error_iff` written out, and the record of the refusing step. -/
theorem refusalReasonsOfWords : Obligations.RefusalReasonsOfWords := by
  intro w
  obtain ⟨hopcode, hbits, hpos, hreason⟩ := decode_error_iff w
  exact ⟨hopcode, hbits, hpos, hreason, fun s ms r hm hp ho hd => ⟨_, step_refuses hm hp ho hd, by simp⟩⟩

/-! ### The refusal mark and record along steps (R107, R109) -/

/-- The mark is set and one reason is appended to the record. -/
structure RefusalRecorded (s t : State) : Prop where
  refused : t.block.refused = true
  record : ∃ r, t.refusals = s.refusals ++ [r]

/-- An instruction records a refusal only as a TICK term outside 0 to 99. -/
theorem exec_marks {i : Instr} {s t : State} (h : exec i s = .next t) : MarksKept s t ∨ RefusalRecorded s t := by
  cases i with
  | tick p =>
    rw [exec_tick] at h
    obtain ⟨-, rfl⟩ | ⟨-, rfl⟩ := accept_cases h
    · split
      · exact .inl ⟨rfl, rfl⟩
      · exact .inr ⟨rfl, _, rfl⟩
    · exact .inl ⟨rfl, rfl⟩
  | feed d =>
    rw [exec_feed] at h
    obtain ⟨-, rfl⟩ | ⟨-, rfl⟩ := accept_cases h
    · rw [feedByte_frame]
      exact .inl ⟨rfl, rfl⟩
    · exact .inl ⟨rfl, rfl⟩
  | feedErr d =>
    rw [exec_feedErr] at h
    obtain ⟨-, rfl⟩ | ⟨-, rfl⟩ := accept_cases h <;> exact .inl ⟨rfl, rfl⟩
  | setColor g color =>
    rw [exec_setColor] at h
    obtain ⟨-, rfl⟩ | ⟨-, rfl⟩ := accept_cases h <;> exact .inl ⟨rfl, rfl⟩

theorem hostTurn_marks {s t : State} (h : hostTurn s = .next t) : MarksKept s t ∨ RefusalRecorded s t := by
  obtain ⟨-, rfl⟩ | ⟨-, rfl⟩ | ⟨w, r, -, -, -, rfl⟩ | ⟨w, i, -, -, -, hi⟩ := hostTurn_cases h
  · exact .inl ⟨rfl, rfl⟩
  · exact .inl ⟨rfl, rfl⟩
  · exact .inr ⟨rfl, r, rfl⟩
  · exact exec_marks hi

theorem txAccept_marks (s : State) : MarksKept s (txAccept s) := by
  cases hp : s.block.phase with
  | ready => rw [txAccept_ready hp]; exact ⟨rfl, rfl⟩
  | ackWait => rw [txAccept_ackWait hp]; exact ⟨rfl, rfl⟩

/-- All that a step can do to the mark and the record: keep both, or record a refusal. RESET keeps them (R125). -/
theorem step_marks {s t : State} (h : step s = .next t) : MarksKept s t ∨ RefusalRecorded s t := by
  obtain ⟨-, rfl⟩ | ⟨ms, -, ht⟩ | ⟨ms, -, rfl⟩ | ⟨a, ms, -, rfl⟩ := step_cases h
  · exact .inl ⟨rfl, rfl⟩
  · obtain ⟨hmark, hrecord⟩ | ⟨hmark, hrecord⟩ := hostTurn_marks ht <;>
      simp only [present_block, beginStep_block, present_refusals, beginStep_refusals] at hmark hrecord
    · exact .inl ⟨hmark, hrecord⟩
    · exact .inr ⟨hmark, hrecord⟩
  · obtain ⟨hmark, hrecord⟩ := txAccept_marks (beginStep ms s)
    exact .inl ⟨hmark, hrecord⟩
  · exact .inl ⟨rfl, rfl⟩

theorem step_keeps_mark {s t : State} (h : step s = .next t) (hs : s.block.refused = true) :
    t.block.refused = true := by
  obtain hkept | hrec := step_marks h
  · rw [hkept.refused, hs]
  · exact hrec.refused

/-- Settles O7: the refusing step sets the mark, and every step of a run keeps it. -/
theorem refusalMarkIsSticky : Obligations.RefusalMarkIsSticky := by
  refine ⟨fun s t ms w r hm hp ho hd ht => ?_, fun r hrun n m hnm hn => ?_⟩
  · cases (step_refuses hm hp ho hd).symm.trans ht
    rw [refuseWord_block]
  · induction m, hnm using Nat.le_induction with
    | base => exact hn
    | succ m _ ih => exact step_keeps_mark (hrun m) ih

/-! ### Every step answers (R105) -/

theorem exec_answers_next (i : Instr) (s : State) : ∃ t, exec i s = .next t := by
  obtain ⟨f, hf⟩ := exec_is_accept i
  rw [hf]
  exact accept_answers_next f s

theorem hostTurn_answers_next (s : State) : ∃ t, hostTurn s = .next t := by
  rw [hostTurn]
  cases answer s with
  | nothing => exact ⟨s, rfl⟩
  | held => exact ⟨s, rfl⟩
  | refused r => exact ⟨_, rfl⟩
  | accepted i => exact exec_answers_next i s

/-- Settles O39: by the next move, and on the host's turn by the block's answer. -/
theorem everyStepAnswersNext : Obligations.EveryStepAnswersNext := by
  intro s
  cases hm : s.moves with
  | nil => exact ⟨_, step_idle hm⟩
  | cons m ms =>
    cases m with
    | host => rw [step_host hm]; exact hostTurn_answers_next _
    | txAccept => exact ⟨_, step_txAccept hm⟩
    | reset a => exact ⟨_, step_reset hm⟩

end Sys2Proof.Machine
end

section
/-!
PROOF. The RESET event (70_reset_and_hazards.md R125 and R126): what it leaves in each channel, on the operation port
and in the bytes transmitted.
-/
namespace Sys2Proof.Machine

@[simp] theorem dutyAt_resetEvent (a : Bool) (s : State) (g : Group) (c : Channel) :
    dutyAt (resetEvent a s) g c = .absent := by
  rw [dutyAt, resetEvent_block, resetBlock, Groups.get_ofFn, Channels.get_ofFn]

@[simp] theorem pinAt_resetEvent (a : Bool) (s : State) (g : Group) (c : Channel) :
    pinAt (resetEvent a s) g c = Config.pinInit g c := by
  rw [pinAt, resetEvent_block, resetBlock, Groups.get_ofFn, Channels.get_ofFn]

theorem resetEvent_offered_ackWait {a : Bool} {s : State} (h : s.block.phase = .ackWait) :
    (resetEvent a s).offered = none := by
  rw [resetEvent, if_pos h]

/-- R126's draw; in Ready, where nothing is pending, `resetEvent_sent_ready` says the rest. -/
theorem resetEvent_sent_ackWait {a : Bool} {s : State} (h : s.block.phase = .ackWait) :
    (resetEvent a s).sent = if a = true then s.sent ++ [Config.ack] else s.sent := by
  simp only [resetEvent, h, true_and]

/-- Settles O45: the step is `resetEvent`, whose block is `resetBlock` with the old mark. -/
theorem resetEventSetsState : Obligations.ResetEventSetsState := by
  intro s ms a hm
  refine ⟨_, step_reset hm, dutyAt_resetEvent a _, pinAt_resetEvent a _, ?idx, ?phase, txValid_ready ?phase,
    resetEvent_msgOut a _, ?mark, fun hs => resetEvent_offered_ackWait ?held⟩
  case idx => rw [resetEvent_block, resetBlock_idx]
  case phase => rw [resetEvent_block, resetBlock_phase]
  case mark => rw [resetEvent_block, resetBlock_refused, beginStep_block]
  case held => rw [beginStep_block, hs]

/-- Settles O46: the draw decides the pending byte, and `resetEvent` clears the message port. -/
theorem resetDuringAckWait : Obligations.ResetDuringAckWait := by
  intro s ms a hm hs
  have hwait : (beginStep ms s).block.phase = .ackWait := by rw [beginStep_block, hs]
  refine ⟨_, step_reset hm, ?sent, resetEvent_msgOut a _, ?phase⟩
  case sent => rw [resetEvent_sent_ackWait hwait, beginStep_sent]; rfl
  case phase => rw [resetEvent_block, resetBlock_phase]

end Sys2Proof.Machine
end

section
/-!
PROOF. The round trip between words and instructions (30_encoding.md section 3): a field placed in a word is read back,
fields that do not meet do not disturb each other, and a word is the union of its fields.
-/
namespace Sys2Proof.Machine

/-! ### One field of a word -/

theorem getLsbD_fieldAt {n : Nat} (k : Nat) (x : BitVec n) {i : Nat} (hi : i < 40) :
    (fieldAt k x).getLsbD i = (decide (k ≤ i) && x.getLsbD (i - k)) := by
  have hik : i - k < 40 := by omega
  simp only [fieldAt, BitVec.getLsbD_shiftLeft, BitVec.getLsbD_setWidth, hi, hik, decide_true, Bool.true_and,
    ← Nat.not_le, decide_not, Bool.not_not]

/-- A field reads back the value placed in it. -/
theorem field_fieldAt {n : Nat} {k : Nat} (hk : k + n ≤ 40) (x : BitVec n) : (fieldAt k x).extractLsb' k n = x := by
  refine BitVec.eq_of_getLsbD_eq fun i hi => ?_
  rw [BitVec.getLsbD_extractLsb', getLsbD_fieldAt k x (by omega)]
  simp [hi]

/-- A field reads 0 where a value is placed that lies above it or below it. -/
theorem field_fieldAt_apart {n : Nat} {j k m : Nat} (hj : j + m ≤ 40) (h : j + m ≤ k ∨ k + n ≤ j) (x : BitVec n) :
    (fieldAt k x).extractLsb' j m = 0 := by
  refine BitVec.eq_of_getLsbD_eq fun i hi => ?_
  rw [BitVec.getLsbD_extractLsb', getLsbD_fieldAt k x (by omega)]
  obtain h | h := h
  · simp [show ¬ k ≤ j + i by omega]
  · simp [BitVec.getLsbD_of_ge x (j + i - k) (by omega)]

theorem fieldAt_zero (k n : Nat) : fieldAt k (0 : BitVec n) = 0 := by
  simp [fieldAt]

/-- Two adjacent fields of a word are one longer field. -/
theorem fieldAt_or_fieldAt (w : CmdWord) (k m n : Nat) :
    fieldAt (k + m) (w.extractLsb' (k + m) n) ||| fieldAt k (w.extractLsb' k m) =
      fieldAt k (w.extractLsb' k (m + n)) := by
  refine BitVec.eq_of_getLsbD_eq fun i hi => ?_
  rw [BitVec.getLsbD_or, getLsbD_fieldAt _ _ hi, getLsbD_fieldAt _ _ hi, getLsbD_fieldAt _ _ hi]
  simp only [BitVec.getLsbD_extractLsb']
  by_cases hk : k ≤ i
  · have hki : k + (i - k) = i := by omega
    by_cases hkm : k + m ≤ i
    · have hkmi : k + m + (i - (k + m)) = i := by omega
      have hlt : i - (k + m) < n ↔ i - k < m + n := by omega
      simp [hk, hkm, hki, hkmi, hlt, show ¬ i - k < m by omega]
    · simp [hk, hkm, hki, show i - k < m by omega, show i - k < m + n by omega]
  · simp [hk, show ¬ k + m ≤ i by omega]

theorem fieldAt_whole (w : CmdWord) : fieldAt 0 (w.extractLsb' 0 40) = w := by
  refine BitVec.eq_of_getLsbD_eq fun i hi => ?_
  rw [getLsbD_fieldAt _ _ hi]
  simp [hi]

/-! ### The group field -/

theorem groupOfField_groupField (g : Group) : groupOfField (groupField g) = g := by
  cases g <;> rfl

theorem groupField_groupOfField (q : BitVec 2) : groupField (groupOfField q) = q := by
  revert q
  decide

/-! ### From an instruction to its word and back -/

/-- A word with one operand below its opcode: the opcode, the zero field between them and the operand read back. -/
theorem fields_of_operand {n : Nat} (op : BitVec 4) (x : BitVec n) {k m : Nat} (hn : n = k) (hm : k + m = 36) :
    opcodeField (fieldAt 36 op ||| fieldAt 0 x) = op ∧ (fieldAt 36 op ||| fieldAt 0 x).extractLsb' k m = 0 ∧
      (fieldAt 36 op ||| fieldAt 0 x).extractLsb' 0 n = x := by
  subst hn
  refine ⟨?_, ?_, ?_⟩
  · rw [opcodeField, BitVec.extractLsb'_or, field_fieldAt (by omega), field_fieldAt_apart (by omega) (by omega)]
    simp
  · rw [BitVec.extractLsb'_or, field_fieldAt_apart (by omega) (by omega), field_fieldAt_apart (by omega) (by omega)]
    simp
  · rw [BitVec.extractLsb'_or, field_fieldAt (by omega), field_fieldAt_apart (by omega) (by omega)]
    simp

theorem decode_encode_tick {p : PosField} (hp : p.Legal) : decode (encode (.tick p)) = .ok (.tick p) := by
  obtain ⟨hop, hzero, hpos⟩ := fields_of_operand 0b0001#4 p (k := 7) (m := 29) rfl rfl
  simp [decode, encode, decodeTick, hop, hzero, hpos, hp]

theorem decode_encode_feed (d : Byte) : decode (encode (.feed d)) = .ok (.feed d) := by
  obtain ⟨hop, hzero, hbyte⟩ := fields_of_operand 0b0010#4 d (k := 8) (m := 28) rfl rfl
  simp [decode, encode, decodeFeed, hop, hzero, hbyte]

theorem decode_encode_feedErr (d : Byte) : decode (encode (.feedErr d)) = .ok (.feedErr d) := by
  obtain ⟨hop, hzero, hbyte⟩ := fields_of_operand 0b0011#4 d (k := 8) (m := 28) rfl rfl
  simp [decode, encode, decodeFeedErr, hop, hzero, hbyte]

/-- The seven fields of a SET_COLOR word. -/
theorem fields_of_setColor (g : Group) (c : Color) :
    opcodeField (encode (.setColor g c)) = 0b0100#4 ∧ (encode (.setColor g c)).extractLsb' 34 2 = 0 ∧
      (encode (.setColor g c)).extractLsb' 32 2 = groupField g ∧
      (encode (.setColor g c)).extractLsb' 24 8 = c.red ∧ (encode (.setColor g c)).extractLsb' 16 8 = c.green ∧
      (encode (.setColor g c)).extractLsb' 8 8 = c.blue ∧ (encode (.setColor g c)).extractLsb' 0 8 = c.white := by
  simp [opcodeField, encode, BitVec.extractLsb'_or, field_fieldAt, field_fieldAt_apart]

theorem decode_encode_setColor (g : Group) (c : Color) :
    decode (encode (.setColor g c)) = .ok (.setColor g c) := by
  obtain ⟨hop, hzero, hgroup, hred, hgreen, hblue, hwhite⟩ := fields_of_setColor g c
  simp [decode, decodeSetColor, hop, hzero, hgroup, hred, hgreen, hblue, hwhite, groupOfField_groupField]

/-- Settles O1: each instruction's word reads back the opcode, the zero field and every operand. -/
theorem decodeEncodeAgree : Obligations.DecodeEncodeAgree := by
  intro i hi
  cases i with
  | tick p => exact decode_encode_tick (of_decide_eq_true hi)
  | feed d => exact decode_encode_feed d
  | feedErr d => exact decode_encode_feedErr d
  | setColor g c => exact decode_encode_setColor g c

/-! ### From a word to its instruction and back -/

/-- A word whose field between opcode and operand is 0 is its opcode and its operand. -/
theorem word_of_operand {w : CmdWord} {op : BitVec 4} {n m : Nat} (hop : opcodeField w = op) (h : n + m = 36)
    (hzero : w.extractLsb' n m = 0) : fieldAt 36 op ||| fieldAt 0 (w.extractLsb' 0 n) = w := by
  have hbelow : fieldAt 0 (w.extractLsb' 0 n) = fieldAt 0 (w.extractLsb' 0 36) := by
    have hjoin := fieldAt_or_fieldAt w 0 n m
    rw [Nat.zero_add, hzero, fieldAt_zero, h] at hjoin
    simpa using hjoin
  rw [hbelow, ← hop, opcodeField]
  exact (fieldAt_or_fieldAt w 0 36 4).trans (fieldAt_whole w)

/-- The five operand fields of a SET_COLOR, side by side, are the word's lowest 34 bits. -/
theorem setColor_operands (w : CmdWord) :
    fieldAt 32 (w.extractLsb' 32 2) ||| (fieldAt 24 (w.extractLsb' 24 8) ||| (fieldAt 16 (w.extractLsb' 16 8) |||
      (fieldAt 8 (w.extractLsb' 8 8) ||| fieldAt 0 (w.extractLsb' 0 8)))) = fieldAt 0 (w.extractLsb' 0 34) := by
  rw [fieldAt_or_fieldAt w 0 8 8, fieldAt_or_fieldAt w 0 16 8, fieldAt_or_fieldAt w 0 24 8]
  exact fieldAt_or_fieldAt w 0 32 2

/-- A format with one must-be-zero field decodes only where the field is 0. -/
theorem reservedField_of_ok {w : CmdWord} {k n : Nat} {d : Except WordRefusal Instr} {i : Instr}
    (h : (if w.extractLsb' k n ≠ 0 then .error (.reservedBits w) else d) = .ok i) :
    w.extractLsb' k n = 0 ∧ d = .ok i := by
  split at h
  · cases h
  · next hzero => exact ⟨not_not.1 hzero, h⟩

theorem encode_decodeTick {w : CmdWord} {i : Instr} (hop : opcodeField w = 0b0001) (h : decodeTick w = .ok i) :
    i.WellFormed ∧ encode i = w := by
  obtain ⟨hzero, h⟩ := reservedField_of_ok h
  split at h
  · next hp =>
    cases h
    exact ⟨decide_eq_true hp, word_of_operand hop rfl hzero⟩
  · cases h

theorem encode_decodeFeed {w : CmdWord} {i : Instr} (hop : opcodeField w = 0b0010) (h : decodeFeed w = .ok i) :
    i.WellFormed ∧ encode i = w := by
  obtain ⟨hzero, h⟩ := reservedField_of_ok h
  cases h
  exact ⟨rfl, word_of_operand hop rfl hzero⟩

theorem encode_decodeFeedErr {w : CmdWord} {i : Instr} (hop : opcodeField w = 0b0011)
    (h : decodeFeedErr w = .ok i) : i.WellFormed ∧ encode i = w := by
  obtain ⟨hzero, h⟩ := reservedField_of_ok h
  cases h
  exact ⟨rfl, word_of_operand hop rfl hzero⟩

theorem encode_decodeSetColor {w : CmdWord} {i : Instr} (hop : opcodeField w = 0b0100)
    (h : decodeSetColor w = .ok i) : i.WellFormed ∧ encode i = w := by
  obtain ⟨hzero, h⟩ := reservedField_of_ok h
  cases h
  refine ⟨rfl, ?_⟩
  rw [encode, groupField_groupOfField]
  simp only [BitVec.or_assoc]
  rw [setColor_operands]
  exact word_of_operand hop rfl hzero

/-- Settles O2: by the opcode, a word that decodes is put together again from its fields. -/
theorem encodeDecodeAgree : Obligations.EncodeDecodeAgree := by
  intro w i h
  rw [decode] at h
  split at h
  · next hop => exact encode_decodeTick hop h
  split at h
  · next hop => exact encode_decodeFeed hop h
  split at h
  · next hop => exact encode_decodeFeedErr hop h
  split at h
  · next hop => exact encode_decodeSetColor hop h
  · cases h

/-- Settles O4: the four operation words are the encoder's own, and the two refused ones are read off their numbers. -/
theorem sampleWordsDecode : Obligations.SampleWordsDecode := by
  obtain ⟨hopcode, -, -, -⟩ := decode_error_iff 0x5000000000
  obtain ⟨-, hbits, -, -⟩ := decode_error_iff 0x1800000064
  exact ⟨decode_encode_tick (p := 99) (by decide), decode_encode_feed 0xFF, decode_encode_feedErr 0x55,
    decode_encode_setColor .group4 ⟨10, 20, 30, 40⟩, hbits.2 (.inl (by decide)), hopcode.2 (.inr (by decide))⟩

end Sys2Proof.Machine
end

section
/-!
PROOF. The invariant of every step boundary (41_frame_decoder.md section 4, 20_memory.md R38), clause group by clause
group: the decoder's clauses, the bytes transmitted, and the refusal mark with its record.
-/
namespace Sys2Proof.Machine

/-! ### The invariant in three parts -/

/-- The clauses of `Inv` on the decoder: index, buffer, phase and message register. -/
structure DecoderInv (s : State) : Prop where
  canonical : s.block.buf.wf = true
  sentinel : s.block.idx ≠ 0 → s.block.buf.read 0 = some Config.sentinel
  prefixWritten : ∀ i : Fin 17, i < s.block.idx → (s.block.buf.read i).isSome = true
  seeks : s.block.phase = .ackWait → s.block.idx = 0
  holdsFrame : s.block.phase = .ackWait → s.block.msg = decodeFrame s
  frameWritten : s.block.phase = .ackWait → ∀ g c, (s.block.buf.read (payloadEntry g c)).isSome = true

/-- Every byte transmitted was the acknowledgment. -/
def OnlyAcks (s : State) : Prop := ∀ b ∈ s.sent, b = Config.ack

/-- The mark is set exactly when a refusal is recorded. -/
def MarkMatches (s : State) : Prop := s.block.refused = true ↔ s.refusals ≠ []

theorem inv_iff (s : State) : Inv s ↔ DecoderInv s ∧ OnlyAcks s ∧ MarkMatches s :=
  ⟨fun ⟨hbuf, hsent, hprefix, hseeks, hholds, hframe, hacks, hmark⟩ =>
    ⟨⟨hbuf, hsent, hprefix, hseeks, hholds, hframe⟩, hacks, hmark⟩,
   fun ⟨⟨hbuf, hsent, hprefix, hseeks, hholds, hframe⟩, hacks, hmark⟩ =>
    ⟨hbuf, hsent, hprefix, hseeks, hholds, hframe, hacks, hmark⟩⟩

/-! ### Entries that have been written -/

/-- An entry that has been written reads the same whatever the free values. -/
theorem memRead_of_written {s t : State} {i : Fin 17} (hb : t.block.buf = s.block.buf)
    (hw : (s.block.buf.read i).isSome = true) : memRead t i = memRead s i := by
  obtain ⟨v, hv⟩ := Option.isSome_iff_exists.1 hw
  rw [memRead_of_listed hv, memRead_of_listed (hb ▸ hv)]

/-- A Message whose entries have all been written does not depend on the free values (R38). -/
theorem decodeFrame_of_written {s t : State} (hb : t.block.buf = s.block.buf)
    (hw : ∀ g c, (s.block.buf.read (payloadEntry g c)).isSome = true) : decodeFrame t = decodeFrame s := by
  refine Groups.ext_get fun g => Channels.ext_get fun c => ?_
  rw [decodeFrame_get, decodeFrame_get, memRead_of_written hb (hw g c)]

/-- Writing the entry at the fill index writes one more entry of the frame. -/
theorem written_of_le {m : Memory} {k i : Fin 17} (hw : ∀ j : Fin 17, j < k → (m.read j).isSome = true) (v : Byte)
    (hi : i ≤ k) : ((m.write k v).read i).isSome = true := by
  rw [Memory.read_write]
  split
  · rfl
  · next hne => exact hw i (lt_of_le_of_ne hi fun h => hne (congrArg Fin.val h))

theorem payloadEntry_le (g : Group) (c : Channel) : payloadEntry g c ≤ 16 := Fin.le_last _

/-- After the byte at index 16 the whole frame has been written. -/
theorem DecoderInv.frame_written {s : State} (h : DecoderInv s) (hi : s.block.idx = 16) (d : Byte) (g : Group)
    (c : Channel) : ((memWrite 16 d s).block.buf.read (payloadEntry g c)).isSome = true :=
  written_of_le (hi ▸ h.prefixWritten) d (payloadEntry_le g c)

/-! ### The decoder's clauses under each operation -/

/-- The decoder's clauses speak of the buffer, the index, the phase, the message register and the free values alone. -/
theorem DecoderInv.congr {s t : State} (h : DecoderInv s) (hidx : t.block.idx = s.block.idx)
    (hbuf : t.block.buf = s.block.buf) (hphase : t.block.phase = s.block.phase) (hmsg : t.block.msg = s.block.msg)
    (hdraws : t.draws = s.draws) : DecoderInv t := by
  obtain ⟨hwf, hsent, hprefix, hseeks, hholds, hframe⟩ := h
  have hmessage : decodeFrame t = decodeFrame s := decodeFrame_congr hbuf hdraws
  constructor <;> simp only [hidx, hbuf, hphase, hmsg, hmessage] <;> assumption

/-- Where the phase is Ready the clauses on AckWait ask nothing. -/
theorem DecoderInv.of_ready {t : State} (hphase : t.block.phase = .ready) (hwf : t.block.buf.wf = true)
    (hsent : t.block.idx ≠ 0 → t.block.buf.read 0 = some Config.sentinel)
    (hprefix : ∀ i : Fin 17, i < t.block.idx → (t.block.buf.read i).isSome = true) : DecoderInv t where
  canonical := hwf
  sentinel := hsent
  prefixWritten := hprefix
  seeks h := by rw [hphase] at h; cases h
  holdsFrame h := by rw [hphase] at h; cases h
  frameWritten h := by rw [hphase] at h; cases h

theorem DecoderInv.seekTake {s : State} (h : DecoderInv s) (hs : s.block.phase = .ready) :
    DecoderInv (seekTake Config.sentinel s) := by
  refine .of_ready hs (memWrite_wf h.canonical 0 _) (fun _ => ?_) fun i hi => ?_
  · exact (Memory.read_write _ 0 0 _).trans (if_pos rfl)
  · exact written_of_le (fun j hj => absurd hj (Fin.not_lt_zero j)) _ (Fin.le_def.2 (Nat.lt_succ_iff.1 hi))

theorem DecoderInv.accumulate {s : State} (h : DecoderInv s) (hs : s.block.phase = .ready)
    (hne : s.block.idx ≠ 0) (hlt : s.block.idx.val < 16) (d : Byte) :
    DecoderInv (accumulate d ⟨s.block.idx.val, hlt⟩ s) := by
  refine .of_ready hs (memWrite_wf h.canonical s.block.idx d) (fun _ => ?_) fun i hi => ?_
  · exact (Memory.read_write _ s.block.idx 0 d).trans
      ((if_neg fun h0 => hne (Fin.ext h0.symm)).trans (h.sentinel hne))
  · exact written_of_le h.prefixWritten d (Fin.le_def.2 (Nat.lt_succ_iff.1 hi))

/-- The completing byte: the message register holds the Message of a buffer written throughout (R89, R103). -/
theorem DecoderInv.complete {s : State} (h : DecoderInv s) (hi : s.block.idx = 16) (d : Byte) :
    DecoderInv (complete d s) where
  canonical := memWrite_wf h.canonical 16 d
  sentinel hne := absurd rfl hne
  prefixWritten i hlt := absurd hlt (Fin.not_lt_zero i)
  seeks _ := rfl
  holdsFrame _ := decodeFrame_congr rfl rfl
  frameWritten _ := h.frame_written hi d

theorem DecoderInv.feedByte {s : State} (h : DecoderInv s) (hs : s.block.phase = .ready) (d : Byte) :
    DecoderInv (feedByte d s) := by
  obtain ⟨-, -, he⟩ | ⟨-, rfl, he⟩ | ⟨hne, hlt, he⟩ | ⟨hi, he⟩ := feedByte_cases d s <;> rw [he]
  · exact h
  · exact h.seekTake hs
  · exact h.accumulate hs hne hlt d
  · exact h.complete hi d

theorem DecoderInv.exec {i : Instr} {s t : State} (h : DecoderInv s) (ht : exec i s = .next t) : DecoderInv t := by
  cases hs : s.block.phase with
  | ackWait =>
    cases (exec_ackWait i hs).symm.trans ht
    exact h
  | ready =>
    cases i with
    | tick p =>
      rw [exec_tick, accept_ready hs] at ht
      cases ht
      split <;> exact h.congr rfl rfl rfl rfl rfl
    | feed d =>
      cases (exec_feed_ready d hs).symm.trans ht
      exact (h.feedByte hs d).congr rfl rfl rfl rfl rfl
    | feedErr d =>
      cases (exec_feedErr_ready d hs).symm.trans ht
      exact h.congr rfl rfl rfl rfl rfl
    | setColor g color =>
      cases (exec_setColor_ready g color hs).symm.trans ht
      exact h.congr rfl rfl rfl rfl rfl

theorem DecoderInv.hostTurn {s t : State} (h : DecoderInv s) (ht : hostTurn s = .next t) : DecoderInv t := by
  obtain ⟨-, rfl⟩ | ⟨-, rfl⟩ | ⟨w, r, -, -, -, rfl⟩ | ⟨w, i, -, -, -, hi⟩ := hostTurn_cases ht
  · exact h
  · exact h
  · exact h.congr rfl rfl rfl rfl rfl
  · exact h.exec hi

theorem DecoderInv.txAccept {s : State} (h : DecoderInv s) : DecoderInv (txAccept s) := by
  cases hp : s.block.phase with
  | ready => rwa [txAccept_ready hp]
  | ackWait =>
    rw [txAccept_ackWait hp]
    exact .of_ready rfl h.canonical h.sentinel h.prefixWritten

theorem DecoderInv.of_reset {t : State} {n : Nat} {b : Bool} (h : t.block = resetBlock n b) : DecoderInv t := by
  refine .of_ready ?_ ?_ ?_ ?_ <;> simp [h, Memory.wf_nil]

theorem DecoderInv.step {s t : State} (h : DecoderInv s) (ht : step s = .next t) : DecoderInv t := by
  have hbegin (ms : List Move) : DecoderInv (beginStep ms s) := h.congr rfl rfl rfl rfl rfl
  obtain ⟨-, rfl⟩ | ⟨ms, -, hturn⟩ | ⟨ms, -, rfl⟩ | ⟨a, ms, -, rfl⟩ := step_cases ht
  · exact hbegin []
  · have hpresent : DecoderInv (present (beginStep ms s)) := (hbegin ms).congr
      (by rw [present_block]) (by rw [present_block]) (by rw [present_block]) (by rw [present_block])
      (present_draws _)
    exact hpresent.hostTurn hturn
  · exact (hbegin ms).txAccept
  · exact .of_reset (resetEvent_block a _)

/-! ### The bytes transmitted and the refusal record -/

theorem resetEvent_sent_cases (a : Bool) (s : State) :
    (resetEvent a s).sent = s.sent ∨ (resetEvent a s).sent = s.sent ++ [Config.ack] := by
  rw [resetEvent]
  dsimp only
  split
  · exact .inr rfl
  · exact .inl rfl

theorem txAccept_sent_cases (s : State) :
    (txAccept s).sent = s.sent ∨ (txAccept s).sent = s.sent ++ [Config.ack] := by
  cases hp : s.block.phase with
  | ready => rw [txAccept_ready hp]; exact .inl rfl
  | ackWait => rw [txAccept_ackWait hp]; exact .inr rfl

theorem hostTurn_sent {s t : State} (h : hostTurn s = .next t) : t.sent = s.sent := by
  obtain ⟨-, rfl⟩ | ⟨-, rfl⟩ | ⟨w, r, -, -, -, rfl⟩ | ⟨w, i, -, -, -, hi⟩ := hostTurn_cases h
  · rfl
  · rfl
  · rfl
  · obtain ⟨-, hsent, -⟩ := exec_frame hi
    exact hsent

/-- All that a step can transmit: nothing, or one acknowledgment. -/
theorem step_sent_cases {s t : State} (h : step s = .next t) :
    t.sent = s.sent ∨ t.sent = s.sent ++ [Config.ack] := by
  obtain ⟨-, rfl⟩ | ⟨ms, -, hturn⟩ | ⟨ms, -, rfl⟩ | ⟨a, ms, -, rfl⟩ := step_cases h
  · exact .inl rfl
  · exact .inl ((hostTurn_sent hturn).trans (by simp))
  · exact txAccept_sent_cases (beginStep ms s)
  · exact resetEvent_sent_cases a (beginStep ms s)

theorem OnlyAcks.step {s t : State} (h : OnlyAcks s) (ht : step s = .next t) : OnlyAcks t := by
  intro b hb
  obtain hsent | hsent := step_sent_cases ht <;> rw [hsent] at hb
  · exact h b hb
  · obtain hb | hb := List.mem_append.1 hb
    · exact h b hb
    · exact List.mem_singleton.1 hb

theorem MarkMatches.step {s t : State} (h : MarkMatches s) (ht : step s = .next t) : MarkMatches t := by
  obtain ⟨hmark, hrecord⟩ | ⟨hmark, r, hrecord⟩ := step_marks ht
  · rwa [MarkMatches, hmark, hrecord]
  · simp [MarkMatches, hmark, hrecord]

/-- Settles O49: a step keeps each of the three parts. -/
theorem stepKeepsInvariant : Obligations.StepKeepsInvariant := by
  intro s t h ht
  obtain ⟨hdec, hacks, hmark⟩ := (inv_iff s).1 h
  exact (inv_iff t).2 ⟨hdec.step ht, hacks.step ht, hmark.step ht⟩

/-- Settles O50: the reset block meets the decoder's clauses, and nothing is transmitted or recorded yet. -/
theorem resetHasInvariant : Obligations.ResetHasInvariant :=
  (inv_iff _).2 ⟨.of_reset reset_block, fun _ hb => absurd hb List.not_mem_nil, by simp [MarkMatches, State.reset]⟩

/-- Settles O25: the completing FEED's Message is read from entries that have all been written. -/
theorem completedMessageIgnoresFreeValues : Obligations.CompletedMessageIgnoresFreeValues := by
  intro s d n h hs hi
  obtain ⟨hdec, -, -⟩ := (inv_iff s).1 h
  refine ⟨_, _, exec_feed_ready d hs, exec_feed_ready (s := { s with draws := n }) d hs, ?_⟩
  rw [feedByte_complete hi, feedByte_complete (s := { s with draws := n }) hi]
  exact (decodeFrame_of_written (s := memWrite 16 d s) (t := memWrite 16 d { s with draws := n }) rfl
    (hdec.frame_written hi d)).symm

end Sys2Proof.Machine
end

section
/-!
PROOF. What the operations leave unchanged: the scheduler's operations and the decoder (40_pwm_scheduler.md R74), the
duty registers and pins under every step (10_state.md R17, R18), and operations applied twice (20_memory.md R45).
-/
namespace Sys2Proof.Machine

/-! ### The decoder under an operation that is no FEED -/

theorem DecoderKept.refl (s : State) : DecoderKept s s := ⟨rfl, fun _ => rfl, rfl, rfl⟩

/-- The frame of a refusal, which writes the mark, the record and the operation port only (60_exceptions.md R108). -/
theorem refuseWord_frame (r : WordRefusal) (s : State) :
    SchedulerKept s (refuseWord r s) ∧ DecoderKept s (refuseWord r s) ∧ SurroundingsKept s (refuseWord r s) :=
  ⟨⟨fun _ _ => rfl, fun _ _ => rfl⟩, ⟨rfl, fun i => memRead_congr rfl rfl i, rfl, rfl⟩, ⟨rfl, rfl, rfl, rfl, rfl⟩⟩

/-- A TICK term that no word decodes to is refused (log 15). -/
theorem exec_tick_of_illegal {p : PosField} {s : State} (hp : ¬ p.Legal) (hs : s.block.phase = .ready) :
    exec (.tick p) s = .next (refuseWord (.positionOutOfRange (encode (.tick p))) s) := by
  rw [exec_tick, accept_ready hs, if_neg hp]
  rfl

/-- Only FEED writes the decoder's state. -/
theorem exec_keeps_decoder {i : Instr} {s t : State} (hi : ∀ d, i ≠ .feed d) (h : exec i s = .next t) :
    DecoderKept s t := by
  cases hs : s.block.phase with
  | ackWait =>
    cases (exec_ackWait i hs).symm.trans h
    exact .refl s
  | ready =>
    cases i with
    | tick p =>
      by_cases hp : p.Legal
      · cases (exec_tick_of_legal hp hs).symm.trans h
        exact (consume_tickAll_frame s p).1
      · cases (exec_tick_of_illegal hp hs).symm.trans h
        obtain ⟨-, hdec, -⟩ := refuseWord_frame (.positionOutOfRange (encode (.tick p))) s
        exact hdec
    | feed d => exact absurd rfl (hi d)
    | feedErr d =>
      cases (exec_feedErr_ready d hs).symm.trans h
      exact ⟨rfl, memRead_consume s, rfl, rfl⟩
    | setColor g color =>
      cases (exec_setColor_ready g color hs).symm.trans h
      exact (consume_setDuty_frame s g _).1

theorem exec_keeps_surroundings {i : Instr} {s t : State} (h : exec i s = .next t) : SurroundingsKept s t := by
  obtain ⟨hout, hsent, hstream, hmoves, hdraws⟩ := exec_frame h
  exact ⟨hout, hsent, hstream, hmoves, hdraws⟩

/-- Settles O20: neither operation is a FEED, and no operation touches what is around the block. -/
theorem schedulerLeavesDecoder : Obligations.SchedulerLeavesDecoder := by
  intro s t i hi h
  have hfeed : ∀ d, i ≠ .feed d := by
    rintro d rfl
    obtain ⟨p, hp⟩ | ⟨g, color, hc⟩ := hi
    · cases hp
    · cases hc
  have hdec := exec_keeps_decoder hfeed h
  exact ⟨hdec, txValid_congr hdec.phase, exec_keeps_surroundings h⟩

/-- Settles O11: the term is refused as its word is. -/
theorem tickTermOutOfRangeIsRefused : Obligations.TickTermOutOfRangeIsRefused := by
  intro s p hp hs
  have hillegal : ¬ p.Legal := by rw [legal_iff]; omega
  exact ⟨_, exec_tick_of_illegal hillegal hs, rfl, rfl, rfl, refuseWord_frame _ s⟩

/-! ### Duty registers and pins under a step -/

theorem SchedulerKept.of_block {s t : State} (h : t.block = s.block) : SchedulerKept s t :=
  ⟨fun g c => by rw [dutyAt, h, dutyAt], fun g c => by rw [pinAt, h, pinAt]⟩

theorem SchedulerKept.trans {s u t : State} (h : SchedulerKept s u) (h' : SchedulerKept u t) : SchedulerKept s t :=
  ⟨fun g c => (h'.duties g c).trans (h.duties g c), fun g c => (h'.pins g c).trans (h.pins g c)⟩

/-- Only SET_COLOR writes duty registers, its own group's, and only TICK writes pins. -/
theorem exec_scheduler {i : Instr} {s t : State} (h : exec i s = .next t) (g : Group) (c : Channel) :
    (dutyAt t g c = dutyAt s g c ∨ ∃ color, i = .setColor g color ∧ dutyAt t g c = enc (color.get c)) ∧
    (pinAt t g c = pinAt s g c ∨ ∃ p, i = .tick p) := by
  cases i with
  | tick p =>
    refine ⟨.inl ?_, .inr ⟨p, rfl⟩⟩
    rw [exec_tick] at h
    obtain ⟨-, rfl⟩ | ⟨-, rfl⟩ := accept_cases h
    · split <;> rfl
    · rfl
  | feed d =>
    rw [exec_feed] at h
    obtain ⟨-, rfl⟩ | ⟨-, rfl⟩ := accept_cases h
    · obtain ⟨hduty, hpin⟩ := feedByte_keeps_channel d s g c
      exact ⟨.inl hduty, .inl hpin⟩
    · exact ⟨.inl rfl, .inl rfl⟩
  | feedErr d =>
    rw [exec_feedErr] at h
    obtain ⟨-, rfl⟩ | ⟨-, rfl⟩ := accept_cases h <;> exact ⟨.inl rfl, .inl rfl⟩
  | setColor k color =>
    rw [exec_setColor] at h
    obtain ⟨-, rfl⟩ | ⟨-, rfl⟩ := accept_cases h
    · refine ⟨?_, .inl rfl⟩
      rw [dutyAt_consume, dutyAt_setDuty]
      by_cases hk : g = k
      · rw [if_pos hk, encColor_get, hk]
        exact .inr ⟨color, rfl, rfl⟩
      · rw [if_neg hk]
        exact .inl rfl
    · exact ⟨.inl rfl, .inl rfl⟩

/-- All that the host's turn can do to the scheduler: keep it, or execute the operation it accepts. -/
theorem hostTurn_scheduler {s t : State} (h : hostTurn s = .next t) :
    SchedulerKept s t ∨ ∃ i, answer s = .accepted i ∧ exec i s = .next t := by
  cases ha : answer s <;> simp only [hostTurn, ha] at h
  case nothing => cases h; exact .inl (.of_block rfl)
  case held => cases h; exact .inl (.of_block rfl)
  case refused r => cases h; exact .inl (refuseWord_frame r s).1
  case accepted i => exact .inr ⟨i, rfl, h⟩

/-- All that a step can do to the scheduler: keep it, reset it, or execute the accepted operation at a state with the
same block. -/
theorem step_scheduler {s t : State} (h : step s = .next t) :
    SchedulerKept s t ∨ takesReset s = true ∨
      ∃ i u, acceptedOp s = some i ∧ u.block = s.block ∧ exec i u = .next t := by
  obtain ⟨-, rfl⟩ | ⟨ms, hm, hturn⟩ | ⟨ms, -, rfl⟩ | ⟨a, ms, hm, rfl⟩ := step_cases h
  · exact .inl (.of_block rfl)
  · have hblock : (present (beginStep ms s)).block = s.block := by rw [present_block, beginStep_block]
    obtain hkept | ⟨i, ha, hexec⟩ := hostTurn_scheduler hturn
    · exact .inl ((SchedulerKept.of_block hblock).trans hkept)
    · exact .inr (.inr ⟨i, _, acceptedOp_host hm ha, hblock, hexec⟩)
  · exact .inl ⟨fun g c => (txAccept_keeps_channel (beginStep ms s) g c).1,
      fun g c => (txAccept_keeps_channel (beginStep ms s) g c).2⟩
  · exact .inr (.inl (by simp only [takesReset, hm]))

/-- Settles O40: where a duty changes the step executes a SET_COLOR of the group or is a RESET. -/
theorem dutyWrittenOnlyBySetColor : Obligations.DutyWrittenOnlyBySetColor := by
  intro s t g c h hne
  obtain hkept | hreset | ⟨i, u, hop, hblock, hexec⟩ := step_scheduler h
  · exact absurd (hkept.duties g c) hne
  · exact .inr hreset
  · obtain ⟨hsame | ⟨color, rfl, hduty⟩, -⟩ := exec_scheduler hexec g c
    · exact absurd (hsame.trans ((SchedulerKept.of_block hblock).duties g c)) hne
    · exact .inl ⟨color, hop, hduty⟩

/-- Settles O41: where a pin changes the step executes a TICK or is a RESET. -/
theorem pinWrittenOnlyByTick : Obligations.PinWrittenOnlyByTick := by
  intro s t g c h hne
  obtain hkept | hreset | ⟨i, u, hop, hblock, hexec⟩ := step_scheduler h
  · exact absurd (hkept.pins g c) hne
  · exact .inr hreset
  · obtain ⟨-, hsame | ⟨p, rfl⟩⟩ := exec_scheduler hexec g c
    · exact absurd (hsame.trans ((SchedulerKept.of_block hblock).pins g c)) hne
    · exact .inl ⟨p, hop⟩

/-! ### Operations applied twice -/

theorem tick1_tick1 (d : Duty) (l : Level) (p : PosField) : tick1 d (tick1 d l p) p = tick1 d l p := by
  by_cases hp : p = 0
  · rw [hp, tick1_start, tick1_start]
  · cases hm : dutyMatches p d with
    | true => rw [tick1_end hp hm, tick1_end hp hm]
    | false => rw [tick1_keep hp hm]

theorem setPins_congr {f f' : Group → Channel → Level} (h : ∀ g c, f g c = f' g c) (s : State) :
    setPins f s = setPins f' s := by
  rw [funext fun g => funext (h g)]

/-- Of two writes of the pins the second one stands. -/
theorem setPins_consume_setPins (f f' : Group → Channel → Level) (s : State) :
    consume (setPins f' (consume (setPins f s))) = consume (setPins f' s) := rfl

theorem tickAll_twice (p : PosField) (s : State) :
    consume (tickAll p (consume (tickAll p s))) = consume (tickAll p s) := by
  have hlevels : tickAll p (consume (tickAll p s)) =
      setPins (fun g c => tick1 (dutyAt s g c) (pinAt s g c) p) (consume (tickAll p s)) :=
    setPins_congr (fun g c => by simp [tick1_tick1]) _
  rw [hlevels]
  exact setPins_consume_setPins _ _ s

theorem setDuty_twice (g : Group) (d : Channels Duty) (s : State) :
    consume (setDuty g d (consume (setDuty g d s))) = consume (setDuty g d s) := by
  have hduty : (s.block.duty.set g d).set g d = s.block.duty.set g d :=
    Groups.ext_get fun k => by simp only [Groups.get_set]; split <;> rfl
  simp only [setDuty, consume, hduty]

/-- Settles O12: held operations change nothing, and each accepted effect is idempotent. -/
theorem tickSetColorFeedErrIdempotent : Obligations.TickSetColorFeedErrIdempotent := by
  intro s t i hwf hfeed h
  cases hs : s.block.phase with
  | ackWait =>
    cases (exec_ackWait i hs).symm.trans h
    exact h
  | ready =>
    have ht : t.block.phase = .ready := (exec_keeps_decoder hfeed h).phase.trans hs
    cases i with
    | tick p =>
      have hp : p.Legal := of_decide_eq_true hwf
      cases (exec_tick_of_legal hp hs).symm.trans h
      rw [exec_tick_of_legal hp ht, tickAll_twice]
    | feed d => exact absurd rfl (hfeed d)
    | feedErr d =>
      cases (exec_feedErr_ready d hs).symm.trans h
      exact exec_feedErr_ready d ht
    | setColor g color =>
      cases (exec_setColor_ready g color hs).symm.trans h
      rw [exec_setColor_ready g color ht, setDuty_twice]

end Sys2Proof.Machine
end

section
/-!
PROOF. Channels along three runs: TICKs without position 0 (40_pwm_scheduler.md R79, R80), the host's APPLY of a Message
(30_encoding.md R66), and the first TICK after RESET (70_reset_and_hazards.md R127); and the state after reset.
-/
namespace Sys2Proof.Machine

theorem brightness_of_present {s : State} {g : Group} {c : Channel} {v : { b : Byte // b ≠ 0 }}
    (h : dutyAt s g c = .present v) : brightness s g c = v.val.toNat := by
  rw [brightness, h, storedByte_present]

theorem brightness_of_absent {s : State} {g : Group} {c : Channel} (h : dutyAt s g c = .absent) :
    brightness s g c = 0 := by
  rw [brightness, h, storedByte_absent]
  rfl

/-- Settles O17: with no position 0 the level rule folds to one test, whether the duty's position occurs. -/
theorem levelsWithoutPositionZero : Obligations.LevelsWithoutPositionZero := by
  intro es s t g c hzero hlegal hd hrun
  obtain ⟨-, hpin, -⟩ := runEvents_channel hrun hd hlegal c
  rw [foldl_nextLevel_of_zero_notMem _ hzero] at hpin
  rw [hpin]
  constructor
  · rintro ⟨v, hv, hmem⟩
    rw [if_pos (by rwa [brightness_of_present hv])]
  · intro hnot
    refine if_neg ?_
    cases hduty : dutyAt s g c with
    | absent => rwa [brightness_of_absent hduty]
    | present v =>
      rw [brightness_of_present hduty]
      exact hnot v hduty

/-- The state that a SET_COLOR event leaves; `applyEvent_setColor_ready` ties it to the event. -/
def afterSetColor (g : Group) (color : Color) (s : State) : State :=
  consume (setDuty g (encColor color) { s with msgOut := none })

theorem applyEvent_setColor_ready (g : Group) (color : Color) {s : State} (hs : s.block.phase = .ready) :
    applyEvent (.op (.setColor g color)) s = some (afterSetColor g color s) :=
  applyEvent_op_of_ready hs (exec_setColor_ready g color hs)

theorem dutyAt_afterSetColor (s : State) (g k : Group) (c : Channel) (color : Color) :
    dutyAt (afterSetColor g color s) k c = if k = g then enc (color.get c) else dutyAt s k c := by
  rw [afterSetColor, dutyAt_consume, dutyAt_setDuty, encColor_get]
  rfl

/-- The state that APPLY leaves; `runEvents_applyMessage` ties it to the run. -/
def afterApply (m : Message) (s : State) : State :=
  afterSetColor .group4 m.group4 (afterSetColor .group3 m.group3
    (afterSetColor .group2 m.group2 (afterSetColor .group1 m.group1 s)))

theorem runEvents_applyMessage (m : Message) {s : State} (hs : s.block.phase = .ready) :
    runEvents (applyMessage m) s = some (afterApply m s) := by
  rw [applyMessage, runEvents_of_applyEvent (applyEvent_setColor_ready _ _ hs),
    runEvents_of_applyEvent (applyEvent_setColor_ready _ _ ?_),
    runEvents_of_applyEvent (applyEvent_setColor_ready _ _ ?_),
    runEvents_of_applyEvent (applyEvent_setColor_ready _ _ ?_)]
  · rfl
  all_goals exact hs

/-- Settles O43: four SET_COLORs, one of each group. -/
theorem applyMessageSetsEveryDuty : Obligations.ApplyMessageSetsEveryDuty := by
  intro s m hs
  refine ⟨_, runEvents_applyMessage m hs, fun g c => ?_, fun _ _ => rfl,
    ⟨rfl, fun i => memRead_congr rfl rfl i, rfl, rfl⟩, ⟨rfl, rfl⟩, rfl⟩
  simp only [afterApply, dutyAt_afterSetColor]
  cases g <;> rfl

/-- Settles O47: after RESET every duty is Absent, and TICK 0 drives an absent duty Low. -/
theorem firstTickAfterResetDrivesLow : Obligations.FirstTickAfterResetDrivesLow := by
  intro s a
  refine ⟨_, _, runEvents_of_applyEvent (applyEvent_reset a s) [], rfl,
    runEvents_of_applyEvent (applyEvent_op_of_ready rfl (exec_tick_of_legal (by decide) rfl)) [], fun g c => ?_⟩
  have hduty := dutyAt_resetEvent a { s with msgOut := none } g c
  rw [pinAt_consume, pinAt_tickAll, tick1_start]
  exact if_pos hduty

/-- Settles O48: the reset block is `resetBlock`, and the ports and histories are read off `State.reset`. -/
theorem resetStateValues : Obligations.ResetStateValues := by
  refine ⟨fun g c => ?_, fun g c => ?_, rfl, rfl, txValid_ready rfl, rfl, rfl, rfl, rfl, rfl⟩
  · rw [dutyAt, reset_block, resetBlock, Groups.get_ofFn, Channels.get_ofFn]
  · rw [pinAt, reset_block, resetBlock, Groups.get_ofFn, Channels.get_ofFn]

end Sys2Proof.Machine
end

section
/-!
PROOF. Single steps by the move scheduled (60_exceptions.md section 3), the phase and the message port (10_state.md R22,
R27), and what follows along runs: one Message a frame (41_frame_decoder.md R92), the stalled transmitter and the fair
one (60_exceptions.md R123).
-/
namespace Sys2Proof.Machine

/-! ### Waiting, held and executed steps -/

theorem hostTurn_accepted {s : State} {i : Instr} (h : answer s = .accepted i) : hostTurn s = exec i s := by
  simp only [hostTurn, h]

/-- Settles O5: the step presents the word, and the block accepts it in Ready and holds it in AckWait, as `exec` does. -/
theorem stepRunsOfferedOperation : Obligations.StepRunsOfferedOperation := by
  intro s ms w i hm ho hd
  refine ⟨beginStep ms (present s), ?_, ?_, ho, rfl, rfl, rfl, ?_, ?_, ?_⟩
  · rw [step_host hm, present_beginStep]
    cases hp : s.block.phase with
    | ready =>
      exact hostTurn_accepted (answer_accepted ho (by simpa using hp) hd)
    | ackWait =>
      have hwait : (beginStep ms (present s)).block.phase = .ackWait := by simpa using hp
      rw [hostTurn_ackWait hwait, exec_ackWait i hwait]
  all_goals simp

/-- Settles O30: each of the three steps is `beginStep` and nothing more. -/
theorem stepWithNothingToDoWaits : Obligations.StepWithNothingToDoWaits := by
  rintro s (hm | ⟨hm, ho, hs⟩ | ⟨hm, hp⟩)
  · rw [step_idle hm, hm]
    rfl
  · obtain ⟨ms, hm⟩ := List.head?_eq_some_iff.1 hm
    have hsilent : present (beginStep ms s) = beginStep ms s := present_of_silence ho hs
    have ha : answer (beginStep ms s) = .nothing := answer_nothing ho
    rw [step_host hm, hsilent, hostTurn, ha, hm]
    rfl
  · obtain ⟨ms, hm⟩ := List.head?_eq_some_iff.1 hm
    rw [step_txAccept hm, txAccept_ready (s := beginStep ms s) hp, hm]
    rfl

/-- In AckWait the host's turn presents the next word and holds it, whatever it is. -/
theorem step_host_ackWait {s : State} {ms : List Move} (hm : s.moves = .host :: ms) (hp : s.block.phase = .ackWait) :
    step s = .next (beginStep ms (present s)) := by
  rw [step_host hm, present_beginStep, hostTurn_ackWait (by simpa using hp)]

/-- Settles O32: the block does not look at a word it holds. -/
theorem illegalWordHeldInAckWait : Obligations.IllegalWordHeldInAckWait := by
  intro s ms w r hm hp ho _
  exact ⟨_, step_host_ackWait hm hp, by simp, ho, by simp, by simp⟩

/-! ### The phase and the message port -/

theorem takesReset_iff (s : State) : takesReset s = true ↔ ∃ a ms, s.moves = .reset a :: ms := by
  rw [takesReset]
  split
  · next a ms hm => simp [hm]
  · next hne => simpa using fun a ms hm => hne a ms hm

/-- TX_ACCEPT and RESET end a hold. -/
theorem step_ends_hold {s t : State} (h : step s = .next t) (hp : s.block.phase = .ackWait)
    (hmove : s.moves.head? = some .txAccept ∨ takesReset s = true) : t.block.phase = .ready := by
  obtain htx | hreset := hmove
  · obtain ⟨ms, hm⟩ := List.head?_eq_some_iff.1 htx
    cases (step_txAccept hm).symm.trans h
    rw [txAccept_ackWait (s := beginStep ms s) hp]
    rfl
  · obtain ⟨a, ms, hm⟩ := (takesReset_iff s).1 hreset
    cases (step_reset hm).symm.trans h
    rfl

/-- Settles O33: of the handshake's four kinds of step a completing FEED enters AckWait, and TX_ACCEPT and RESET leave
it. -/
theorem phaseChangesOnlyBy : Obligations.PhaseChangesOnlyBy := by
  intro s t h
  refine ⟨fun hs => ?_, fun hs => ⟨fun ht => ?_, step_ends_hold h hs⟩⟩
  · obtain ⟨hc, -, ht, -⟩ | ⟨hc, ⟨-, -, ht, -⟩ | ⟨-, ht, -⟩ | hkept⟩ := step_handshake h
    · simp [hc, ht]
    · simp [hc, ht]
    · simp [hc, ht]
    · simp [hc, hkept.phase, hs]
  · obtain ⟨-, hs', -⟩ | ⟨-, ⟨htx, -⟩ | ⟨hreset, -⟩ | hkept⟩ := step_handshake h
    · rw [hs] at hs'; cases hs'
    · exact .inl htx
    · exact .inr hreset
    · rw [hkept.phase, hs] at ht; cases ht

/-- Settles O34: of the handshake's four kinds of step only the TX_ACCEPT in AckWait presents a Message. -/
theorem messagePortValidForOneStep : Obligations.MessagePortValidForOneStep := by
  intro s t m h
  constructor
  · intro hout
    obtain ⟨-, -, -, -, hnone⟩ | ⟨-, ⟨htx, hs, -, -, -, hmsg⟩ | ⟨-, -, hnone⟩ | hkept⟩ := step_handshake h
    · rw [hnone] at hout; cases hout
    · rw [hmsg] at hout
      exact ⟨htx, hs, (Option.some.inj hout).symm⟩
    · rw [hnone] at hout; cases hout
    · rw [hkept.msgOut] at hout; cases hout
  · rintro ⟨htx, hs, rfl⟩
    obtain ⟨ms, hm⟩ := List.head?_eq_some_iff.1 htx
    obtain ⟨u, hu, -, -, hmsg, -⟩ := txAcceptDeliversMessage s ms hm hs
    cases hu.symm.trans h
    exact hmsg

/-! ### Along a run -/

/-- The Message a state holds in AckWait, counted. -/
def messagesHeld (s : State) : Nat := if s.block.phase = .ackWait then 1 else 0

/-- A step that is no RESET loses no Message: one presented was held, and one held was completed. -/
theorem step_messages {s t : State} (h : step s = .next t) (hr : takesReset s = false) :
    (if msgValid t = true then 1 else 0) + messagesHeld t =
      messagesHeld s + (if completesFrame s = true then 1 else 0) := by
  obtain ⟨hc, hs, ht, -, hout⟩ | ⟨hc, ⟨-, hs, ht, -, -, hout⟩ | ⟨hr', -⟩ | hkept⟩ := step_handshake h
  · simp [messagesHeld, msgValid, hc, hs, ht, hout]
  · simp [messagesHeld, msgValid, hc, hs, ht, hout]
  · rw [hr] at hr'; cases hr'
  · simp [messagesHeld, msgValid, hc, hkept.phase, hkept.msgOut]

/-- Settles O36: the balance of `step_messages`, step by step. -/
theorem oneMessagePerCompletedFrame : Obligations.OneMessagePerCompletedFrame := by
  intro r hrun n hr
  show countSteps msgValid (fun k => r (k + 1)) n + messagesHeld (r n) =
    messagesHeld (r 0) + countSteps completesFrame r n
  induction n with
  | zero => exact Nat.add_comm _ _
  | succ n ih =>
    have hstep := step_messages (hrun n) (hr n (Nat.lt_succ_self n))
    have hbefore := ih fun k hk => hr k (Nat.lt_succ_of_lt hk)
    simp only [countSteps]
    omega

/-- A hold that only the host's turns follow. -/
structure Stalled (s : State) : Prop where
  phase : s.block.phase = .ackWait
  hostOnly : ∀ m ∈ s.moves, m = .host

/-- Without a step of the transmitter the hold goes on, and the block does not change. -/
theorem Stalled.step {s t : State} (hs : Stalled s) (h : step s = .next t) :
    Stalled t ∧ t.block = s.block ∧ t.sent = s.sent := by
  obtain ⟨hp, hhost⟩ := hs
  cases hm : s.moves with
  | nil =>
    cases (step_idle hm).symm.trans h
    exact ⟨⟨hp, fun _ hmem => absurd hmem List.not_mem_nil⟩, rfl, rfl⟩
  | cons m ms =>
    obtain rfl : m = .host := hhost m (by rw [hm]; exact List.mem_cons_self)
    cases (step_host_ackWait hm hp).symm.trans h
    exact ⟨⟨by simpa using hp, fun k hk => hhost k (by rw [hm]; exact List.mem_cons_of_mem _ hk)⟩,
      by simp, by simp⟩

/-- Settles O37: `Stalled.step` along the run. -/
theorem stalledTransmitterFreezesBlock : Obligations.StalledTransmitterFreezesBlock := by
  intro r hrun hp hhost n
  have hstalled : Stalled (r n) ∧ (r n).block = (r 0).block ∧ (r n).sent = (r 0).sent := by
    induction n with
    | zero => exact ⟨⟨hp, hhost⟩, rfl, rfl⟩
    | succ n ih =>
      obtain ⟨hs, hblock, hsent⟩ := ih
      obtain ⟨hs', hblock', hsent'⟩ := hs.step (hrun n)
      exact ⟨hs', hblock'.trans hblock, hsent'.trans hsent⟩
  obtain ⟨hs, hblock, hsent⟩ := hstalled
  exact ⟨hblock, txValid_ackWait hs.phase, hsent⟩

/-- Settles O38: at the fair move the hold has ended already, or that step ends it. -/
theorem fairTransmitterEndsEveryHold : Obligations.FairTransmitterEndsEveryHold := by
  intro r hrun hfair n hn
  obtain ⟨m, hnm, hmove⟩ := hfair n hn
  cases hp : (r m).block.phase with
  | ready => exact ⟨m, hnm, hp⟩
  | ackWait => exact ⟨m + 1, Nat.le_succ_of_le hnm, step_ends_hold (hrun m) hp hmove⟩

end Sys2Proof.Machine
end

section
/-!
PROOF. Frames along runs of events (41_frame_decoder.md R102, R103): a frame short of a byte, and fed bytes with other
steps between.
-/
namespace Sys2Proof.Machine

/-! ### A lost byte -/

/-- Bytes discarded while seeking change nothing of the block (R86). -/
theorem Seeking.garbage_keeps_block {bs : List Byte} {s t : State} (hs : Seeking s)
    (hb : ∀ b ∈ bs, b ≠ Config.sentinel) (h : runEvents (feeds bs) s = some t) : t.block = s.block := by
  induction bs generalizing s with
  | nil =>
    cases h
    rfl
  | cons b bs ih =>
    obtain ⟨u, hu, hrest⟩ := runEvents_cons h
    rw [applyEvent_feed b hs.phase, feedByte_discard (s := { s with msgOut := none }) hs.idx (hb b List.mem_cons_self)]
      at hu
    cases hu
    exact ih (s := consume { s with msgOut := none }) ⟨hs.phase, hs.idx⟩
      (fun c hc => hb c (List.mem_cons_of_mem b hc)) hrest

/-- The Message of a frame whose last byte was lost and replaced by the sentinel behind it. -/
def closedBySentinel (m : Message) : Message := { m with group4 := { m.group4 with white := Config.sentinel } }

/-- A short frame and the next frame's sentinel are, byte for byte, a whole frame. -/
theorem shortFrame_append_sentinel (m next : Message) :
    (frame m).take 16 ++ (frame next).take 1 = frame (closedBySentinel m) := rfl

/-- Settles O27: the two pieces make a frame of their own, after which the decoder seeks and discards the rest. -/
theorem lostByteMisalignsStream : Obligations.LostByteMisalignsStream := by
  intro s m next hphase hidx hb
  obtain ⟨v, hv, hv_phase, hv_idx, hv_msg⟩ := Seeking.runEvents_frame ⟨hphase, hidx⟩ (closedBySentinel m)
  obtain ⟨hv_sent, -⟩ := runEvents_feeds_ports hv
  have haccept := applyEvent_txAccept_of_ackWait hv_phase
  rw [txAccept_ackWait (s := { v with msgOut := none }) hv_phase] at haccept
  have ht := (runEvents_append_of hv _).trans (runEvents_of_applyEvent haccept [])
  rw [← shortFrame_append_sentinel m next] at ht
  have hseek : Seeking { setPhase .ready { v with msgOut := none } with
    msgOut := some v.block.msg, sent := v.sent ++ [Config.ack] } := ⟨rfl, hv_idx⟩
  obtain ⟨u, hu, hu_seek⟩ := hseek.runEvents_garbage hb
  obtain ⟨hu_sent, hu_out⟩ := runEvents_feeds_ports hu
  refine ⟨_, u, ht, congrArg some hv_msg, hu, hseek.garbage_keeps_block hb hu, hu_seek.idx, hu_out ?_, ?_⟩
  · simp [payloadBytes]
  · rw [hu_sent]
    exact congrArg (· ++ [Config.ack]) hv_sent

/-! ### Fed bytes across other steps -/

theorem fedBytes_cons (e : Event) (es : List Event) : fedBytes (e :: es) = fedBytes [e] ++ fedBytes es := by
  cases e with
  | op i => cases i <;> rfl
  | txAccept => rfl
  | reset a => rfl

/-- From `s` to `t` the bytes `bs` were stored behind one another from the fill index on, and the entries below it are
as they were. -/
structure Appended (bs : List Byte) (s t : State) : Prop where
  phase : t.block.phase = .ready
  idx : t.block.idx.val = s.block.idx.val + bs.length
  kept : ∀ i : Fin 17, i < s.block.idx → memRead t i = memRead s i
  stored : ∀ (i : Fin 17) (k : Nat) (hk : k < bs.length), i.val = s.block.idx.val + k → memRead t i = bs[k]

theorem Appended.of_decoderKept {s t : State} (h : DecoderKept s t) (hs : s.block.phase = .ready) :
    Appended [] s t where
  phase := h.phase.trans hs
  idx := congrArg Fin.val h.idx
  kept i _ := h.buffer i
  stored _ _ hk _ := absurd hk (Nat.not_lt_zero _)

theorem Appended.trans {bs cs : List Byte} {s u t : State} (h : Appended bs s u) (h' : Appended cs u t) :
    Appended (bs ++ cs) s t where
  phase := h'.phase
  idx := by rw [h'.idx, h.idx, List.length_append, Nat.add_assoc]
  kept i hi := by
    have hidx := h.idx
    rw [h'.kept i (by omega), h.kept i hi]
  stored i k hk hi := by
    have hidx := h.idx
    rw [List.length_append] at hk
    by_cases hlt : k < bs.length
    · rw [List.getElem_append_left hlt, h'.kept i (by omega), h.stored i k hlt hi]
    · rw [List.getElem_append_right (Nat.le_of_not_lt hlt)]
      exact h'.stored i (k - bs.length) (by omega) (by omega)

/-- A FEED at index 1 to 15 appends its byte (R88). -/
theorem Appended.of_feed {s : State} (hs : s.block.phase = .ready) (hlo : 1 ≤ s.block.idx.val)
    (hhi : s.block.idx.val ≤ 15) (d : Byte) :
    ∃ t, exec (.feed d) s = .next t ∧ Appended [d] s t := by
  obtain ⟨t, ht, hread, hidx, hkept, hphase, -⟩ := feedAccumulates s d hs hlo hhi
  refine ⟨t, ht, hphase, hidx, fun i hi => hkept i (ne_of_lt hi), fun i k hk hi => ?_⟩
  obtain rfl : k = 0 := Nat.lt_one_iff.1 hk
  obtain rfl : i = s.block.idx := Fin.ext hi
  exact hread

/-- One event that is no RESET, where a byte it feeds still fits. -/
theorem applyEvent_appended {e : Event} {s t : State} (h : applyEvent e s = some t) (hs : s.block.phase = .ready)
    (hlo : 1 ≤ s.block.idx.val) (hhi : s.block.idx.val + (fedBytes [e]).length ≤ 16) (he : ∀ a, e ≠ .reset a) :
    Appended (fedBytes [e]) s t := by
  cases e with
  | op i =>
    obtain ⟨-, ht⟩ := applyEvent_op h
    have hother (hi : ∀ d, i ≠ .feed d) : Appended [] s t := by
      obtain ⟨hidx, hbuf, hphase, hmsg⟩ := exec_keeps_decoder hi ht
      exact .of_decoderKept ⟨hidx, hbuf, hphase, hmsg⟩ hs
    cases i with
    | feed d =>
      obtain ⟨u, hu, hphase, hidx, hkept, hstored⟩ :=
        Appended.of_feed (s := { s with msgOut := none }) hs hlo (Nat.le_of_succ_le_succ hhi) d
      cases hu.symm.trans ht
      exact ⟨hphase, hidx, hkept, hstored⟩
    | tick p => exact hother fun _ hi => nomatch hi
    | feedErr d => exact hother fun _ hi => nomatch hi
    | setColor g color => exact hother fun _ hi => nomatch hi
  | txAccept =>
    obtain ⟨hwait, -⟩ := applyEvent_txAccept h
    rw [hs] at hwait
    cases hwait
  | reset a => exact absurd rfl (he a)

theorem runEvents_appended {es : List Event} {s t : State} (h : runEvents es s = some t)
    (hs : s.block.phase = .ready) (hlo : 1 ≤ s.block.idx.val)
    (hhi : s.block.idx.val + (fedBytes es).length ≤ 16) (hreset : ∀ a, Event.reset a ∉ es) :
    Appended (fedBytes es) s t := by
  induction es generalizing s with
  | nil =>
    cases h
    exact .of_decoderKept (.refl _) hs
  | cons e es ih =>
    obtain ⟨u, hu, hrest⟩ := runEvents_cons h
    rw [fedBytes_cons] at hhi ⊢
    rw [List.length_append] at hhi
    have hfirst : Appended (fedBytes [e]) s u := applyEvent_appended hu hs hlo (by omega)
      fun a ha => hreset a (ha ▸ List.mem_cons_self)
    have hidx := hfirst.idx
    exact hfirst.trans (ih hrest hfirst.phase (by omega) (by omega)
      fun a ha => hreset a (List.mem_cons_of_mem e ha))

/-- Settles O28: event by event, each FEED appends its byte and every other step keeps the decoder. -/
theorem feedsAccumulateAcrossOtherSteps : Obligations.FeedsAccumulateAcrossOtherSteps := by
  intro es s t hs hlo hhi hreset hrun
  obtain ⟨hphase, hidx, hkept, hstored⟩ := runEvents_appended hrun hs hlo hhi hreset
  exact ⟨hphase, hidx, hkept, hstored⟩

end Sys2Proof.Machine
end

section
/-!
PROOF. Runs of events as runs of `step` (10_state.md section 4, 60_exceptions.md section 3): each event is one step of
the machine that has the event's word in the host's stream and its move in the schedule.
-/
namespace Sys2Proof.Machine

/-- The state with another operation port, host's stream and schedule. -/
def withInputs (o : Option CmdWord) (ws : List CmdWord) (ms : List Move) (s : State) : State :=
  { s with offered := o, stream := ws, moves := ms }

theorem feedByte_withInputs (d : Byte) (o : Option CmdWord) (ws : List CmdWord) (ms : List Move) (s : State) :
    feedByte d (withInputs o ws ms s) = withInputs o ws ms (feedByte d s) := by
  obtain ⟨hi, hd, he⟩ | ⟨hi, rfl, he⟩ | ⟨hne, hlt, he⟩ | ⟨hi, he⟩ := feedByte_cases d s <;> rw [he]
  · exact feedByte_discard hi hd
  · exact feedByte_take hi
  · exact feedByte_accumulate (s := withInputs o ws ms s) hne hlt
  · exact feedByte_complete hi

/-- What an accepted operation does to the rest of the state does not depend on the port, the stream and the
schedule. -/
theorem exec_withInputs {i : Instr} {s t : State} (hs : s.block.phase = .ready) (h : exec i s = .next t)
    (o : Option CmdWord) (ws : List CmdWord) (ms : List Move) :
    exec i (withInputs o ws ms s) = .next (withInputs none ws ms t) := by
  have hready : (withInputs o ws ms s).block.phase = .ready := hs
  cases i with
  | tick p =>
    by_cases hp : p.Legal
    · cases (exec_tick_of_legal hp hs).symm.trans h
      exact exec_tick_of_legal hp hready
    · cases (exec_tick_of_illegal hp hs).symm.trans h
      exact exec_tick_of_illegal hp hready
  | feed d =>
    cases (exec_feed_ready d hs).symm.trans h
    rw [exec_feed_ready d hready, feedByte_withInputs]
    rfl
  | feedErr d =>
    cases (exec_feedErr_ready d hs).symm.trans h
    exact exec_feedErr_ready d hready
  | setColor g color =>
    cases (exec_setColor_ready g color hs).symm.trans h
    exact exec_setColor_ready g color hready

/-- One legal event is one step of the loaded machine. -/
theorem step_loadEvents {e : Event} (es : List Event) {s t : State} (hlegal : ∀ i, e = .op i → i.WellFormed)
    (h : applyEvent e s = some t) : step (loadEvents (e :: es) s) = .next (loadEvents es t) := by
  cases e with
  | op i =>
    obtain ⟨hs, hexec⟩ := applyEvent_op h
    have hport : present (beginStep (es.map Event.move) (loadEvents (.op i :: es) s)) =
        withInputs (some (encode i)) (eventWords es) (es.map Event.move) { s with msgOut := none } := rfl
    have hdecode := decodeEncodeAgree i (hlegal i rfl)
    rw [step_host rfl, hport]
    refine (hostTurn_accepted ?_).trans (exec_withInputs (s := { s with msgOut := none }) hs hexec _ _ _)
    exact answer_accepted rfl hs hdecode
  | txAccept =>
    obtain ⟨hs, rfl⟩ := applyEvent_txAccept h
    rw [step_txAccept rfl, txAccept_ackWait (s := beginStep _ (loadEvents (.txAccept :: es) s)) hs,
      txAccept_ackWait (s := { s with msgOut := none }) hs]
    rfl
  | reset a =>
    cases (applyEvent_reset a s).symm.trans h
    rw [step_reset rfl]
    simp [resetEvent, beginStep, loadEvents, eventWords]

theorem core_run_succ {s u : State} (h : step s = .next u) (k : Nat) :
    Host.Core.run Sys2Proof.core (k + 1) s = Host.Core.run Sys2Proof.core k u := by
  have hstep : Sys2Proof.core.step s = .next u := h
  simp only [Host.Core.run, hstep]

/-- The commuting squares of `step_loadEvents`, one after the other. -/
theorem run_loadEvents {es : List Event} {s t : State} (hlegal : OpsLegal es) (h : runEvents es s = some t) :
    Host.Core.run Sys2Proof.core es.length (loadEvents es s) = .next (loadEvents [] t) := by
  induction es generalizing s with
  | nil =>
    cases h
    rfl
  | cons e es ih =>
    obtain ⟨u, hu, hrest⟩ := runEvents_cons h
    have hstep := step_loadEvents es (fun i hi => hlegal i (hi ▸ List.mem_cons_self)) hu
    rw [List.length_cons, core_run_succ hstep]
    exact ih (fun i hi => hlegal i (List.mem_cons_of_mem e hi)) hrest

/-- Settles O44: the run ends at the loaded machine with no event left. -/
theorem eventRunsAreStepRuns : Obligations.EventRunsAreStepRuns := by
  intro es s t hlegal h
  exact ⟨loadEvents [] t, run_loadEvents hlegal h, rfl, rfl, rfl, rfl, rfl, rfl, rfl⟩

end Sys2Proof.Machine
end
